-- ==== Sys2Proof/Word.lean ====
section
/-! DEFINITION. The word types of the block (R9, R31, R49): bytes, 16-bit selectors and port
numbers, 32-bit addresses, 64-bit command words. -/

namespace Sys2Proof

/-- "Byte" is 8 bits (R9). -/
abbrev Byte := BitVec 8

/-- A 16-bit value: a selector, half of an address, a table limit (R55, R58). -/
abbrev Half := BitVec 16

/-- A port number, "at most 16 bits wide" (R31 b). -/
abbrev Port := BitVec 16

/-- A 32-bit memory address (R31 a). -/
abbrev Addr := BitVec 32

/-- A command word `CW`, 64 bits of one fixed length (R49). -/
abbrev CommandWord := BitVec 64

end Sys2Proof
end

