-- ==== Sys2Proof/Syntax.lean ====
section
/-! DEFINITION. The abstract syntax of the command set SLK-CMD v1 (R3, R48): one constructor per
row of spec/opcode_table.json. -/

namespace Sys2Proof

/-- The 12 commands, each "a tag with operands" (R48). -/
inductive Instr where
  /-- `GATE_SET sel, haddr` (R70). -/
  | gateSet (sel : Half) (haddr : Addr)
  /-- `IDT_LOAD` (R72). -/
  | idtLoad
  /-- `PIC_ICW1` (R78). -/
  | picIcw1
  /-- `PIC_ICW2` (R79). -/
  | picIcw2
  /-- `PIC_ICW3` (R80). -/
  | picIcw3
  /-- `PIC_ICW4` (R81). -/
  | picIcw4
  /-- `PIC_MASK_ALL` (R82). -/
  | picMaskAll
  /-- `PIC_UNMASK_KBD` (R83). -/
  | picUnmaskKbd
  /-- `TB_CLEAR` (R90). -/
  | tbClear
  /-- `TB_PUTC ch` (R91). -/
  | tbPutc (ch : Byte)
  /-- `TB_NEWLINE` (R93). -/
  | tbNewline
  /-- `KBD_SERVICE` (R100). -/
  | kbdService
deriving DecidableEq, Repr

end Sys2Proof
end

