-- ==== Sys2Proof/Decode.lean ====
section
/-! DEFINITION. The command encoding of R49 to R54: the decoder, total on every 64-bit word and
rejecting by name, the opcode map of R54 as match and mask rows, and the encoder. -/

namespace Sys2Proof

/-- Why a word spells no command (R53). -/
inductive DecodeError where
  /-- `OPC` is none of the 12 values of R54. -/
  | unknownOpcode
  /-- A must-be-zero bit of the opcode's format is set (R50, R51, R52). -/
  | nonzeroReserved
deriving DecidableEq, Repr

/-- The opcode field `OPC = CW[63:56]` (R49). -/
def opcodeField (w : CommandWord) : Byte := w.extractLsb' 56 8

/-- The operand field `CW[55:0]` (R49). -/
def operandField (w : CommandWord) : BitVec 56 := w.extractLsb' 0 56

/-- `SEL = CW[47:32]` (R51). -/
def selField (w : CommandWord) : Half := w.extractLsb' 32 16

/-- `HADDR = CW[31:0]` (R51). -/
def haddrField (w : CommandWord) : Addr := w.extractLsb' 0 32

/-- `CH = CW[7:0]` (R52). -/
def chField (w : CommandWord) : Byte := w.extractLsb' 0 8

/-- Format N: "`CW[55:0]` must be all zero" (R50). -/
def decodeN (w : CommandWord) (i : Instr) : Except DecodeError Instr :=
  if operandField w = 0 then .ok i else .error .nonzeroReserved

/-- Format G: "`CW[55:48]` must be zero" (R51). -/
def decodeG (w : CommandWord) : Except DecodeError Instr :=
  if w.extractLsb' 48 8 = 0 then .ok (.gateSet (selField w) (haddrField w))
  else .error .nonzeroReserved

/-- Format C: "`CW[55:8]` must be zero" (R52). -/
def decodeC (w : CommandWord) : Except DecodeError Instr :=
  if w.extractLsb' 8 48 = 0 then .ok (.tbPutc (chField w)) else .error .nonzeroReserved

/-- The decoder: "it returns a command or \"illegal\"" (R53), by the opcode map of R54. -/
def decode (w : CommandWord) : Except DecodeError Instr :=
  match (opcodeField w).toNat with
  | 0x10 => decodeG w
  | 0x11 => decodeN w .idtLoad
  | 0x20 => decodeN w .picIcw1
  | 0x21 => decodeN w .picIcw2
  | 0x22 => decodeN w .picIcw3
  | 0x23 => decodeN w .picIcw4
  | 0x24 => decodeN w .picMaskAll
  | 0x25 => decodeN w .picUnmaskKbd
  | 0x30 => decodeN w .tbClear
  | 0x31 => decodeC w
  | 0x32 => decodeN w .tbNewline
  | 0x40 => decodeN w .kbdService
  | _ => .error .unknownOpcode

/-! ### The encoder -/

/-- `OPC` of each command (R54). -/
def opcode : Instr → Byte
  | .gateSet _ _ => 0x10
  | .idtLoad => 0x11
  | .picIcw1 => 0x20
  | .picIcw2 => 0x21
  | .picIcw3 => 0x22
  | .picIcw4 => 0x23
  | .picMaskAll => 0x24
  | .picUnmaskKbd => 0x25
  | .tbClear => 0x30
  | .tbPutc _ => 0x31
  | .tbNewline => 0x32
  | .kbdService => 0x40

/-- The operand field of each command in its format (R50, R51, R52). -/
def operand : Instr → BitVec 56
  | .gateSet sel haddr => (0 : BitVec 8) ++ sel ++ haddr
  | .tbPutc ch => (0 : BitVec 48) ++ ch
  | .idtLoad => 0
  | .picIcw1 => 0
  | .picIcw2 => 0
  | .picIcw3 => 0
  | .picIcw4 => 0
  | .picMaskAll => 0
  | .picUnmaskKbd => 0
  | .tbClear => 0
  | .tbNewline => 0
  | .kbdService => 0

/-- The command word of a command: `OPC` over the operand field (R49). -/
def encode (i : Instr) : CommandWord := opcode i ++ operand i

/-! ### The opcode map as match and mask (R54) -/

/-- One row of the opcode map: "A word `w` is the command of a row exactly when
`w AND mask = match`". -/
structure OpcodeRow where
  mnemonic : String
  pattern : CommandWord
  mask : CommandWord
deriving DecidableEq, Repr

/-- The word is a command of the row (R54). -/
abbrev OpcodeRow.Matches (r : OpcodeRow) (w : CommandWord) : Prop := w &&& r.mask = r.pattern

/-- The 12 rows of the table in R54, in its order. -/
def opcodeTable : List OpcodeRow :=
  [ ⟨"GATE_SET", 0x1000000000000000, 0xFFFF000000000000⟩,
    ⟨"IDT_LOAD", 0x1100000000000000, 0xFFFFFFFFFFFFFFFF⟩,
    ⟨"PIC_ICW1", 0x2000000000000000, 0xFFFFFFFFFFFFFFFF⟩,
    ⟨"PIC_ICW2", 0x2100000000000000, 0xFFFFFFFFFFFFFFFF⟩,
    ⟨"PIC_ICW3", 0x2200000000000000, 0xFFFFFFFFFFFFFFFF⟩,
    ⟨"PIC_ICW4", 0x2300000000000000, 0xFFFFFFFFFFFFFFFF⟩,
    ⟨"PIC_MASK_ALL", 0x2400000000000000, 0xFFFFFFFFFFFFFFFF⟩,
    ⟨"PIC_UNMASK_KBD", 0x2500000000000000, 0xFFFFFFFFFFFFFFFF⟩,
    ⟨"TB_CLEAR", 0x3000000000000000, 0xFFFFFFFFFFFFFFFF⟩,
    ⟨"TB_PUTC", 0x3100000000000000, 0xFFFFFFFFFFFFFF00⟩,
    ⟨"TB_NEWLINE", 0x3200000000000000, 0xFFFFFFFFFFFFFFFF⟩,
    ⟨"KBD_SERVICE", 0x4000000000000000, 0xFFFFFFFFFFFFFFFF⟩ ]

/-- The mnemonic of R54 for each command. -/
def mnemonic : Instr → String
  | .gateSet _ _ => "GATE_SET"
  | .idtLoad => "IDT_LOAD"
  | .picIcw1 => "PIC_ICW1"
  | .picIcw2 => "PIC_ICW2"
  | .picIcw3 => "PIC_ICW3"
  | .picIcw4 => "PIC_ICW4"
  | .picMaskAll => "PIC_MASK_ALL"
  | .picUnmaskKbd => "PIC_UNMASK_KBD"
  | .tbClear => "TB_CLEAR"
  | .tbPutc _ => "TB_PUTC"
  | .tbNewline => "TB_NEWLINE"
  | .kbdService => "KBD_SERVICE"

/-! ### Words handed over as numbers or bytes -/

/-- The command word whose low `nbits` bits are `w` and whose bits above `nbits` are zero (log 22). -/
def commandWordOfBits (nbits w : Nat) : CommandWord := BitVec.ofNat 64 (w % 2 ^ nbits)

/-- The command word that eight bytes spell when a model keeps it in a byte array: least-significant
byte first (R34). `none` for any other number of bytes, since every command is 64 bits (R64). -/
def commandWordOfBytes : List Byte → Option CommandWord
  | [b0, b1, b2, b3, b4, b5, b6, b7] => some (b7 ++ b6 ++ b5 ++ b4 ++ b3 ++ b2 ++ b1 ++ b0)
  | _ => none

/-- The eight bytes of a command word, least-significant first (R34). -/
def bytesOfCommandWord (w : CommandWord) : List Byte :=
  (List.range 8).map fun i => w.extractLsb' (8 * i) 8

/-- The instruction the decoder reads from an instruction whose bits are `w`: the word is laid out as
its eight bytes (R34), read back, and decoded. -/
def decodeTableWord (nbits w : Nat) : Option Instr :=
  match commandWordOfBytes (bytesOfCommandWord (commandWordOfBits nbits w)) with
  | none => none
  | some cw =>
    match decode cw with
    | .ok i => some i
    | .error _ => none

end Sys2Proof
end

