-- ==== Sys2Proof/Config.lean ====
section
/-! DEFINITION. The configuration parameters of R7, the derived parameters of R8, and the free
values: constants with no body, which no proof can evaluate. -/

namespace Sys2Proof

/-- The variable parameters of R7, fixed for the life of the system (R29). `CPU_IF` is not here: the
host sets it during a run (R116), so it stands in State. -/
structure Config where
  /-- `IDT_BASE`: byte address of entry 0 of the vector table. -/
  idtBase : Addr
  /-- `KERNEL_CS`: the platform's code-segment selector. -/
  kernelCs : Half
  /-- `GATE_ATTR`: the type/attribute byte of R56. -/
  gateAttr : Byte
  /-- `ISR_ENTRY`: where the keyboard service sequence is entered. -/
  isrEntry : Addr
  /-- `PIC1_CMD`: primary controller, command port. -/
  pic1Cmd : Port
  /-- `PIC1_DATA`: primary controller, data port. -/
  pic1Data : Port
  /-- `PIC2_CMD`: secondary controller, command port. -/
  pic2Cmd : Port
  /-- `PIC2_DATA`: secondary controller, data port. -/
  pic2Data : Port
  /-- `KBD_DATA`: keyboard data port. -/
  kbdData : Port
  /-- `KBD_STATUS`: keyboard status port. -/
  kbdStatus : Port
  /-- `ICW1`: initialization command byte. -/
  icw1 : Byte
  /-- `VOFF_PRI`: vector-offset byte of the primary controller. -/
  voffPri : Byte
  /-- `VOFF_SEC`: vector-offset byte of the secondary controller. -/
  voffSec : Byte
  /-- `ICW3_PRI`: cascade-wiring byte of the primary controller. -/
  icw3Pri : Byte
  /-- `ICW3_SEC`: cascade-wiring byte of the secondary controller. -/
  icw3Sec : Byte
  /-- `ICW4`: environment/mode byte. -/
  icw4 : Byte
  /-- `EOI_CMD`: end-of-interrupt acknowledgment byte. -/
  eoiCmd : Byte
  /-- `ENTER_CODE`: the designated Enter key code. -/
  enterCode : Byte
  /-- `SCANTAB`: the scancode-to-character table, 128 entries, read-only (R27). -/
  scanTab : Vector Byte 128
  /-- `TB_BASE`: byte address of cell 0 of the text buffer. -/
  tbBase : Addr
  /-- `COLS`: columns per row. -/
  cols : Nat
  /-- `ROWS`: rows. -/
  rows : Nat
  /-- `TB_ATTR`: the fixed attribute byte. -/
  tbAttr : Byte
  /-- `SPACE`: the space character. -/
  space : Byte
  /-- `BANNER`: the text the entry point prints. -/
  banner : List Byte
deriving DecidableEq, Repr

namespace Config

/-- `IVT_ENTRIES`, not variable (R7). -/
abbrev ivtEntries : Nat := 256

/-- `GATE_BYTES`, not variable (R7). -/
abbrev gateBytes : Nat := 8

/-- `KBD_LINE`, not variable: "IRQ1 = keyboard" (R7). -/
abbrev kbdLine : Nat := 1

/-- `IVT_BYTES = IVT_ENTRIES × GATE_BYTES` (R8). -/
abbrev ivtBytes : Nat := ivtEntries * gateBytes

/-- `IDT_LIMIT = IVT_BYTES − 1`, "(table size in bytes − 1)" (R8, R58). -/
abbrev idtLimit : Half := BitVec.ofNat 16 (ivtBytes - 1)

/-- `ROWB = 2 × COLS`, bytes per row (R8, R88). -/
def rowBytes (c : Config) : Nat := 2 * c.cols

/-- The number of cells, `ROWS × COLS` (R26). -/
def cells (c : Config) : Nat := c.rows * c.cols

/-- `LEN = ROWS × COLS × 2`, the buffer length in bytes (R8, R88). -/
def len (c : Config) : Nat := c.rows * c.cols * 2

/-- `KBD_VECTOR = VOFF_PRI + KBD_LINE` (R8). -/
def kbdVector (c : Config) : Nat := c.voffPri.toNat + kbdLine

/-- The byte address of table entry `v`, `IDT_BASE + 8 × v` over the integers (R25, R63). -/
def ivtEntry (c : Config) (v : Nat) : Nat := c.idtBase.toNat + gateBytes * v

/-- The byte address of the keyboard gate (R70). -/
def kbdEntry (c : Config) : Nat := c.ivtEntry c.kbdVector

/-- The byte address of offset `o` of the text buffer, `TB_BASE + o` over the integers (R63, R88). -/
def tbAddr (c : Config) (o : Nat) : Nat := c.tbBase.toNat + o

/-! ### Free values (the guide's form: opaque constants, no body) -/

/-- FREE VALUE (R24, log 6): what the `n`-th port read answers when no answer has been supplied in
State. "any of the 256 values is possible for each, independently, at every invocation". -/
opaque freePortByte : Nat → Byte

/-- FREE VALUE (R78, R20, log 24): what `IMR_PRI` holds from the `n`-th draw on, after `PIC_ICW1`: "no
value the block knows". -/
opaque freeMaskPri : Nat → Byte

/-- FREE VALUE (R78, R20, log 24): the same for `IMR_SEC`. -/
opaque freeMaskSec : Nat → Byte

/-- FREE VALUE (R7 `SCANTAB`, OPEN, log 3): the entries of the table in the default configuration. -/
opaque openScanTab : Nat → Byte

/-- FREE VALUE (R7 `BANNER`, OPEN, log 3): the banner in the default configuration. -/
opaque openBanner : List Byte

/-- The default column of R7. The values R7 marks GK are PRESUMED (log 2); `IDT_BASE` and `ISR_ENTRY`
are OPEN and take the spec's example numbers, DESIGN CHOICE (log 2); `SCANTAB` and `BANNER` are free
(log 3). Nothing but `State.reset` uses it. -/
def default : Config where
  idtBase := 0x00104000
  kernelCs := 0x0008
  gateAttr := 0x8E
  isrEntry := 0x00101234
  pic1Cmd := 0x0020
  pic1Data := 0x0021
  pic2Cmd := 0x00A0
  pic2Data := 0x00A1
  kbdData := 0x0060
  kbdStatus := 0x0064
  icw1 := 0x11
  voffPri := 0x20
  voffSec := 0x28
  icw3Pri := 0x04
  icw3Sec := 0x02
  icw4 := 0x01
  eoiCmd := 0x20
  enterCode := 0x1C
  scanTab := Vector.ofFn fun i => openScanTab i.val
  tbBase := 0x000B8000
  cols := 80
  rows := 25
  tbAttr := 0x07
  space := 0x20
  banner := openBanner

end Config

end Sys2Proof
end

