-- ==== Sys2Proof/Machine/State.lean ====
section
/-! DEFINITION. The state of the machine (R13, with the platform's `IN_SERVICE` of R115 and `CPU_IF`
of R116), the reasons a step can stop, and the state right after reset (R30). -/

namespace Sys2Proof.Machine

/-- A list of (address, byte) pairs, addresses strictly rising. A byte that is not listed has no value:
its reset contents are "unspecified" (R25, R26, R30; log 9). -/
abbrev Memory := List Host.Cell

/-- The direction of a port access (R28). -/
inductive Dir where
  | read
  | write
deriving DecidableEq, Repr

/-- One element of `PORTLOG`: "`(W, port, byte)` or `(R, port, byte)`" (R28). -/
structure PortAccess where
  dir : Dir
  port : Port
  byte : Byte
deriving DecidableEq, Repr

/-- `IDTR`: the (limit, base) pair of the active interrupt vector table (R21). -/
structure Idtr where
  limit : Half
  base : Addr
deriving DecidableEq, Repr

/-- What an agent of R4 does next (log 4). -/
inductive Input where
  /-- A command word is handed to the command interface (R31 e, R48, R49). -/
  | command (w : CommandWord)
  /-- The host sets `CPU_IF` (R116, R138). -/
  | setCpuIf (on : Bool)
  /-- The platform has a key event to offer (R113). -/
  | keyEvent
deriving DecidableEq, Repr

/-- The four causes of R105; the cause code is the bit of `FAULT`. These are not stops: the block
records the bit and goes on (R109). -/
inductive Cause where
  /-- `F_BOUNDS`: the text buffer's end (R106). -/
  | bounds
  /-- `F_ORDER`: a stage or status that does not admit the command (R107). -/
  | order
  /-- `F_ILLEGAL`: a word that spells no command (R108). -/
  | illegal
  /-- `F_VECTOR`: the gate does not lead to the service sequence (R114). -/
  | vector
deriving DecidableEq, Repr

/-- The whole state. The first group is the block's (R13), the second the platform's (R115, R116), the
third the model's own (log 1, log 4, log 6). -/
structure State where
  /-- CSR0 `SEQ`, the stage of the sequencer (R16). -/
  seq : BitVec 3
  /-- CSR1 `CURSOR` (R17). -/
  cursor : BitVec 16
  /-- CSR2 `FAULT`, sticky (R18). -/
  fault : BitVec 4
  /-- CSR3 bit 0, `STATUS.GATE_DONE` (R19). -/
  gateDone : Bool
  /-- CSR3 bit 1, `STATUS.IDT_LOADED` (R19). -/
  idtLoaded : Bool
  /-- CSR4 `IMR_PRI` (R20). -/
  imrPri : Byte
  /-- CSR5 `IMR_SEC` (R20). -/
  imrSec : Byte
  /-- CSR6 `VOFF_PRI_L` (R20). -/
  voffPriL : Byte
  /-- CSR7 `VOFF_SEC_L` (R20). -/
  voffSecL : Byte
  /-- CSR8 `IDTR` (R21). -/
  idtr : Idtr
  /-- The memory that holds `IVT` (R25) and `TB` (R26). -/
  mem : Memory
  /-- `PORTLOG`, every port access since reset, oldest first (R28). -/
  portLog : List PortAccess
  /-- `IN_SERVICE`, the controller's unacknowledged delivery (R115). -/
  inService : Bool
  /-- `CPU_IF`, the CPU's acceptance of maskable interrupts, host-controlled (R116). -/
  cpuIf : Bool
  /-- The configuration; no step changes it (R29, log 1). -/
  cfg : Config
  /-- What the agents do next, in order (log 4). -/
  inputs : List Input
  /-- What the next port reads answer, in order; past its end the answers are free (R24, log 6). -/
  portAnswers : List Byte
  /-- How many free values have been drawn (log 6, log 24). -/
  draws : Nat
deriving DecidableEq, Repr

/-- The reasons the machine stops. -/
inductive Fault where
  /-- Raised by `storeBytes` when a store does not fit in the 32-bit address space (R31 a). SAFE: no
  configuration that meets R8 reaches it ("no wrap-around can occur", R63; log 10). -/
  | outsideAddressSpace (addr : Nat)
deriving DecidableEq, Repr

/-- The reasons an instruction has no meaning. -/
inductive Refusal where
  /-- Raised only by an arm of `exec` whose instruction has no meaning yet; no arm does. SAFE: the
  machine stops and nothing is claimed. -/
  | notModelled (mnemonic : String)
deriving DecidableEq, Repr

/-- The machine's outcome of a step. -/
abbrev Out := Host.Outcome State Fault Refusal

/-- The state right after reset in configuration `c` (R30, R126). `imrPri` to `idtr` are unspecified
by the spec: DESIGN CHOICE zero (log 7). `cpuIf` is OPEN: DESIGN CHOICE 0 (log 8). -/
def State.resetWith (c : Config) : State where
  seq := 0
  cursor := 0
  fault := 0
  gateDone := false
  idtLoaded := false
  imrPri := 0
  imrSec := 0
  voffPriL := 0
  voffSecL := 0
  idtr := ⟨0, 0⟩
  mem := []
  portLog := []
  inService := false
  cpuIf := false
  cfg := c
  inputs := []
  portAnswers := []
  draws := 0

/-- The machine right after reset, in the default configuration of R7 (log 2). -/
def State.reset : State := State.resetWith Config.default

end Sys2Proof.Machine
end

