-- ==== Sys2Proof/Machine/Flags.lean ====
section
/-! DEFINITION. The flag-like state: the sticky bits of `FAULT` (R18, R105), the `STATUS` register
(R19), the stages of `SEQ` (R16), and `DELIVERABLE` (R98). -/

namespace Sys2Proof.Machine

/-- "The cause code of a fault is the index of its bit in `FAULT`" (R105). -/
def Cause.code : Cause → Nat
  | .bounds => 0
  | .order => 1
  | .illegal => 2
  | .vector => 3

/-- The bit of `FAULT` that a cause sets (R18). -/
def Cause.bit (c : Cause) : BitVec 4 := 1#4 <<< c.code

/-- `FAULT.X <- 1`, and nothing else (R11, R109). -/
def State.raise (s : State) (c : Cause) : State := { s with fault := s.fault ||| c.bit }

/-- Whether the bit of a cause is set in `FAULT` (R18). -/
def State.hasFault (s : State) (c : Cause) : Bool := s.fault.getLsbD c.code

/-- CSR3 `STATUS` as two bits: bit 0 `GATE_DONE`, bit 1 `IDT_LOADED` (R19). -/
def State.status (s : State) : BitVec 2 :=
  BitVec.ofBool s.idtLoaded ++ BitVec.ofBool s.gateDone

/-! The stages of `SEQ` (R16). Value 7 is no stage. -/

/-- 0 `S_IDLE`: nothing sent. -/
abbrev sIdle : BitVec 3 := 0
/-- 1 `S_INIT`: initialization command sent to both controllers. -/
abbrev sInit : BitVec 3 := 1
/-- 2 `S_REMAP`: vector-offset bytes sent. -/
abbrev sRemap : BitVec 3 := 2
/-- 3 `S_CASCADE`: cascade-wiring bytes sent. -/
abbrev sCascade : BitVec 3 := 3
/-- 4 `S_MODE`: mode bytes sent. -/
abbrev sMode : BitVec 3 := 4
/-- 5 `S_MASKED`: all lines of both controllers masked. -/
abbrev sMasked : BitVec 3 := 5
/-- 6 `S_DONE`: keyboard line unmasked. -/
abbrev sDone : BitVec 3 := 6

/-- `DELIVERABLE = (SEQ = S_DONE) and (STATUS.GATE_DONE = 1) and (STATUS.IDT_LOADED = 1)` (R98). -/
abbrev State.Deliverable (s : State) : Prop :=
  s.seq = sDone ∧ s.gateDone = true ∧ s.idtLoaded = true

/-- The delivery agent may issue one `KBD_SERVICE` (R113): `SEQ = S_DONE`, `IN_SERVICE = 0`,
`CPU_IF = 1`. That the block is between commands holds at every step (R37). -/
abbrev State.DeliveryEnabled (s : State) : Prop :=
  s.seq = sDone ∧ s.inService = false ∧ s.cpuIf = true

end Sys2Proof.Machine
end

