-- ==== Sys2Proof/Machine/Operands.lean ====
section
/-! DEFINITION. The values the block assembles or takes apart (R63): gate descriptor (R55 to R57),
table descriptor (R58), text cells (R59), mask bytes (R61), keyboard bytes (R62). -/

namespace Sys2Proof.Machine

/-- The `n` bytes of `v`, least-significant first: `v[8i+7:8i]` is byte `i` (R33). -/
def littleEndian {w : Nat} (n : Nat) (v : BitVec w) : List Byte :=
  (List.range n).map fun i => v.extractLsb' (8 * i) 8

/-- `OFFSET_LO = A[15:0]` (R57). -/
def offsetLo (haddr : Addr) : Half := haddr.extractLsb' 0 16

/-- `OFFSET_HI = A[31:16]` (R57). -/
def offsetHi (haddr : Addr) : Half := haddr.extractLsb' 16 16

/-- The gate descriptor `G = OFFSET_HI ++ GATE_ATTR ++ 0x00 ++ sel ++ OFFSET_LO` (R55, R70). -/
def gateDescriptor (attr : Byte) (sel : Half) (haddr : Addr) : BitVec 64 :=
  offsetHi haddr ++ attr ++ (0x00 : Byte) ++ sel ++ offsetLo haddr

/-- The 8 bytes of a gate in memory order (R33, R55). -/
def gateBytes (c : Config) (sel : Half) (haddr : Addr) : List Byte :=
  littleEndian Config.gateBytes (gateDescriptor c.gateAttr sel haddr)

/-- The handler address a gate leads to, `A = OFFSET_HI ++ OFFSET_LO` (R57). -/
def gateTarget (g : BitVec 64) : Addr := g.extractLsb' 48 16 ++ g.extractLsb' 0 16

/-- The selector field of a gate, `G[31:16]` (R55). -/
def gateSelector (g : BitVec 64) : Half := g.extractLsb' 16 16

/-- The packed words of the table descriptor: `W0 = base[15:0] ++ limit`,
`W1 = zext_32(base[31:16])` (R58, R72). -/
def packTableDescriptor (limit : Half) (base : Addr) : BitVec 32 × BitVec 32 :=
  (base.extractLsb' 0 16 ++ limit, (base.extractLsb' 16 16).setWidth 32)

/-- What the table load consumes of the two words: the low 48 bits `T` of `W1 ++ W0`, with
`T[15:0] = limit` and `T[47:16] = base` (R58). -/
def unpackTableDescriptor (w0 w1 : BitVec 32) : Idtr :=
  let t : BitVec 48 := (w1 ++ w0).extractLsb' 0 48
  ⟨t.extractLsb' 0 16, t.extractLsb' 16 32⟩

/-- `MASK_ALL = 0xFF` (R61). -/
def maskAllByte : Byte := 0xFF

/-- `MASK_KBD_ONLY = 0xFF AND NOT (1 << KBD_LINE)` (R61, R83). -/
def maskKbdOnlyByte : Byte := 0xFF &&& ~~~(1#8 <<< Config.kbdLine)

/-- The two bytes of a text cell: the character, then `TB_ATTR` (R59). -/
def cellBytes (c : Config) (ch : Byte) : List Byte := [ch, c.tbAttr]

/-- The contents of a cleared buffer: every cell `(SPACE, TB_ATTR)` (R90). -/
def clearedBuffer (c : Config) : List Byte :=
  (List.replicate c.cells (cellBytes c c.space)).flatten

/-- The document's `c + (2*columns − (c mod 2*columns))`, over the integers (R93). -/
def nextRowBoundary (c : Config) (cursor : Nat) : Nat :=
  cursor + (c.rowBytes - cursor % c.rowBytes)

/-- A code is ready: `st[0] = 1`; the other bits are unused (R62). -/
abbrev dataReady (st : Byte) : Prop := st.getLsbD 0 = true

/-- The classes of an input code (R62, R101). -/
inductive KeyClass where
  /-- `code[7] = 1`, "key released". -/
  | release
  /-- `code = ENTER_CODE`. -/
  | enter
  /-- Any other press; the index into `SCANTAB` is `code[6:0]`. -/
  | press (index : BitVec 7)
deriving DecidableEq, Repr

/-- Steps 4 to 6 of R100 in order: the release test, then the Enter test, then the table index. -/
def classifyKey (c : Config) (code : Byte) : KeyClass :=
  if code.getLsbD 7 then .release
  else if code = c.enterCode then .enter
  else .press (code.extractLsb' 0 7)

/-- `SCANTAB[i]` for a 7-bit index: "the lookup cannot go out of range" (R103). -/
def scanLookup (c : Config) (i : BitVec 7) : Byte := c.scanTab[i.toNat]'i.isLt

end Sys2Proof.Machine
end

