-- ==== Sys2Proof/Machine/Ops.lean ====
section
/-! DEFINITION. The named operations over memory, ports, the table register and the text buffer (the
primitives of R10), and taking and acknowledging the keyboard interrupt (R112 to R115). -/

namespace Sys2Proof.Machine

/-! ### Memory -/

/-- What the byte at an address reads as; `none` is the spec's "unspecified" (R30, R46; log 9). -/
def Memory.read : Memory → Nat → Option Byte
  | [], _ => none
  | (a, b) :: m, x => if a = x then some b else Memory.read m x

/-- `n` bytes from `a` upwards. -/
def Memory.readBytes (m : Memory) (a n : Nat) : List (Option Byte) :=
  (List.range n).map fun i => m.read (a + i)

/-- The cells of a run of bytes that starts at `a`. -/
def cellsAt : Nat → List Byte → Memory
  | _, [] => []
  | a, b :: bs => (a, b) :: cellsAt (a + 1) bs

/-- Store a run of bytes at `a …`; every other byte stays. This is `MemWrite(a, n, v)` (R10) with the
bytes of `v` already in memory order (R33), for one access or several adjacent ones (R36, log 21). -/
def Memory.writeBytes (m : Memory) (a : Nat) (bs : List Byte) : Memory :=
  m.filter (fun p => p.1 < a) ++ cellsAt a bs ++ m.filter (fun p => a + bs.length ≤ p.1)

/-- The canonical form: addresses strictly rising. An unlisted byte has no value, so no entry can
equal what an unlisted address reads as. -/
abbrev Memory.wf (m : Memory) : Prop := m.Pairwise fun p q => p.1 < q.1

/-- Go on with the next state, or stop as before. -/
def onNext (o : Out) (k : State → Out) : Out :=
  match o with
  | .next s => k s
  | .fault r => .fault r
  | .refused r => .refused r

/-- A memory store of the block: the `n` bytes `bs` at `a …`. Addresses are 32 bits wide (R31 a): a store
that does not fit stops the machine, which no configuration of R8 reaches (R63, log 10). -/
def State.storeBytes (s : State) (a n : Nat) (bs : List Byte) : Out :=
  if a + n ≤ 2 ^ 32 then .next { s with mem := s.mem.writeBytes a bs }
  else .fault (.outsideAddressSpace a)

/-! ### Ports -/

/-- `PortWrite(p, b)`: appends `(W, p, b)` to `PORTLOG` (R10). -/
def State.portWrite (s : State) (p : Port) (b : Byte) : State :=
  { s with portLog := s.portLog ++ [⟨.write, p, b⟩] }

/-- What the `k`-th port read from now answers: the supplied byte, or past the supplied ones the free
value (R24, log 6). -/
def State.answerAt (s : State) (k : Nat) : Byte :=
  match s.portAnswers[k]? with
  | some b => b
  | none => Config.freePortByte (s.draws + k)

/-- `PortRead(p)`: draws one byte and appends `(R, p, b)` to `PORTLOG` (R10, R24). The byte is
`s.answerAt 0`. -/
def State.afterPortRead (s : State) (p : Port) : State :=
  { s with
    portLog := s.portLog ++ [⟨.read, p, s.answerAt 0⟩]
    portAnswers := s.portAnswers.tail
    draws := s.draws + 1 }

/-- The two port writes of a `PIC_*` step: "the primary controller is written first and the secondary
second" (R76). -/
def State.writeBothControllers (s : State) (primary secondary : Port) (b1 b2 : Byte) : State :=
  (s.portWrite primary b1).portWrite secondary b2

/-! ### Admission -/

/-- Run `body` in its required stage; in any other stage the command faults with `F_ORDER` and does
nothing else (R77). -/
def State.inStage (s : State) (required : BitVec 3) (body : Out) : Out :=
  if s.seq = required then body else .next (s.raise .order)

/-! ### Gate and table -/

/-- `MemWrite(IDT_BASE + 8 * KBD_VECTOR, 8, G)` (R70). -/
def State.installGate (s : State) (sel : Half) (haddr : Addr) : Out :=
  s.storeBytes s.cfg.kbdEntry Config.gateBytes (gateBytes s.cfg sel haddr)

/-- `TableLoad` of the two packed words: "in one indivisible step" (R10, R21, R58). -/
def State.tableLoad (s : State) (words : BitVec 32 × BitVec 32) : State :=
  { s with idtr := unpackTableDescriptor words.1 words.2 }

/-! ### Text buffer -/

/-- The body of `TB_PUTC` (R91), which `KBD_SERVICE` also performs (R100 step 6). -/
def State.putCell (s : State) (ch : Byte) : Out :=
  if s.cursor.toNat + 2 > s.cfg.len then .next (s.raise .bounds)
  else onNext (s.storeBytes (s.cfg.tbAddr s.cursor.toNat) 2 (cellBytes s.cfg ch)) fun s' =>
    .next { s' with cursor := BitVec.ofNat 16 (s.cursor.toNat + 2) }

/-- The body of `TB_NEWLINE` (R93), which `KBD_SERVICE` also performs (R100 step 5). -/
def State.advanceRow (s : State) : Out :=
  if nextRowBoundary s.cfg s.cursor.toNat > s.cfg.len then .next (s.raise .bounds)
  else .next { s with cursor := BitVec.ofNat 16 (nextRowBoundary s.cfg s.cursor.toNat) }

/-- The body of `TB_CLEAR` (R90): every cell, then the cursor. -/
def State.clearBuffer (s : State) : Out :=
  onNext (s.storeBytes (s.cfg.tbAddr 0) s.cfg.len (clearedBuffer s.cfg)) fun s' =>
    .next { s' with cursor := 0 }

/-- What the display reader sees at offset `o` of `TB`: the byte written there, or no value (R46). -/
def State.displayByte (s : State) (o : Nat) : Option Byte := s.mem.read (s.cfg.tbAddr o)

/-! ### Taking the keyboard interrupt, and acknowledging it -/

/-- The vector the primary controller presents for the keyboard line: its latched offset plus the
line number (R112). -/
def State.routedVector (s : State) : Nat := s.voffPriL.toNat + Config.kbdLine

/-- The installed gate is the one `GATE_SET KERNEL_CS, ISR_ENTRY` writes, and `IDTR` is
`(0x07FF, IDT_BASE)` (R114). -/
abbrev State.GateValid (s : State) : Prop :=
  s.mem.readBytes s.cfg.kbdEntry Config.gateBytes
      = (gateBytes s.cfg s.cfg.kernelCs s.cfg.isrEntry).map some ∧
    s.idtr = ⟨Config.idtLimit, s.cfg.idtBase⟩

/-- The controller presents `KBD_VECTOR` and the CPU finds its entry inside the limit (R112). -/
abbrev State.RouteValid (s : State) : Prop :=
  s.routedVector = s.cfg.kbdVector ∧ 8 * s.routedVector + 7 ≤ s.idtr.limit.toNat

/-- The delivery leads to the service sequence (R112, R114; log 11). -/
abbrev State.DeliveryLeadsToService (s : State) : Prop := s.RouteValid ∧ s.GateValid

/-- Taking the keyboard interrupt: the agent "first sets `IN_SERVICE <- 1`" (R113). No register of the
block saves anything (R117). -/
def State.takeInterrupt (s : State) : State := { s with inService := true }

/-- An invalid gate at delivery: `FAULT.F_VECTOR <- 1`, no service, `IN_SERVICE` stays 1 (R114). -/
def State.badGate (s : State) : State := s.takeInterrupt.raise .vector

/-- The end-of-interrupt acknowledgment: `PortWrite(PIC1_CMD, EOI_CMD)`, and `IN_SERVICE` becomes 0
(R100 step 1, R115). The return itself belongs to the excluded stub (R118). -/
def State.endOfInterrupt (s : State) : State :=
  { s.portWrite s.cfg.pic1Cmd s.cfg.eoiCmd with inService := false }

end Sys2Proof.Machine
end

