-- ==== Sys2Proof/Machine/Gdb.lean ====
section
/-! DEFINITION. The gate descriptor builder and table loader (R69): `GATE_SET`, `IDT_LOAD`. -/

namespace Sys2Proof.Machine

/-- `GATE_SET sel, haddr` (R70). -/
def execGateSet (sel : Half) (haddr : Addr) (s : State) : Out :=
  if s.gateDone then .next (s.raise .order)
  else onNext (s.installGate sel haddr) fun s' => .next { s' with gateDone := true }

/-- `IDT_LOAD` (R72). -/
def execIdtLoad (s : State) : Out :=
  if s.gateDone = false ∨ s.idtLoaded = true then .next (s.raise .order)
  else
    .next { s.tableLoad (packTableDescriptor Config.idtLimit s.cfg.idtBase) with idtLoaded := true }

end Sys2Proof.Machine
end

