-- ==== Sys2Proof/Machine/Ksv.lean ====
section
/-! DEFINITION. The keyboard service sequence (R97): `KBD_SERVICE`. -/

namespace Sys2Proof.Machine

/-- Steps 4 to 6 of R100 on a code that has been read. -/
def State.dispatchKey (s : State) (code : Byte) : Out :=
  match classifyKey s.cfg code with
  | .release => .next s
  | .enter => s.advanceRow
  | .press i => s.putCell (scanLookup s.cfg i)

/-- Steps 2 to 6 of R100: the status read, and the data read only when a code is ready. -/
def State.serveKeyboard (s : State) : Out :=
  let st := s.answerAt 0
  let s₁ := s.afterPortRead s.cfg.kbdStatus
  if dataReady st then
    let code := s₁.answerAt 0
    (s₁.afterPortRead s.cfg.kbdData).dispatchKey code
  else .next s₁

/-- `KBD_SERVICE` (R100): admission (R98), the unconditional acknowledgment, then the key. -/
def execKbdService (s : State) : Out :=
  if s.Deliverable then s.endOfInterrupt.serveKeyboard
  else .next (s.raise .order)

end Sys2Proof.Machine
end

