-- ==== Sys2Proof/Machine/Pcs.lean ====
section
/-! DEFINITION. The controller command sequencer (R76): the six `PIC_*` commands. -/

namespace Sys2Proof.Machine

/-- `PIC_ICW1` (R78): the same byte to both command ports. "From this command until `PIC_MASK_ALL`
completes, `IMR_PRI` and `IMR_SEC` hold no value the block knows": both become free (log 24). -/
def execPicIcw1 (s : State) : Out :=
  s.inStage sIdle <| .next
    { s.writeBothControllers s.cfg.pic1Cmd s.cfg.pic2Cmd s.cfg.icw1 s.cfg.icw1 with
      imrPri := Config.freeMaskPri s.draws
      imrSec := Config.freeMaskSec s.draws
      draws := s.draws + 1
      seq := sInit }

/-- `PIC_ICW2` (R79): the offsets to the data ports, and the latches. -/
def execPicIcw2 (s : State) : Out :=
  s.inStage sInit <| .next
    { s.writeBothControllers s.cfg.pic1Data s.cfg.pic2Data s.cfg.voffPri s.cfg.voffSec with
      voffPriL := s.cfg.voffPri
      voffSecL := s.cfg.voffSec
      seq := sRemap }

/-- `PIC_ICW3` (R80): the cascade-wiring bytes to the data ports. -/
def execPicIcw3 (s : State) : Out :=
  s.inStage sRemap <| .next
    { s.writeBothControllers s.cfg.pic1Data s.cfg.pic2Data s.cfg.icw3Pri s.cfg.icw3Sec with
      seq := sCascade }

/-- `PIC_ICW4` (R81): the same mode byte to both data ports. -/
def execPicIcw4 (s : State) : Out :=
  s.inStage sCascade <| .next
    { s.writeBothControllers s.cfg.pic1Data s.cfg.pic2Data s.cfg.icw4 s.cfg.icw4 with seq := sMode }

/-- `PIC_MASK_ALL` (R82): every line of both controllers masked. -/
def execPicMaskAll (s : State) : Out :=
  s.inStage sMode <| .next
    { s.writeBothControllers s.cfg.pic1Data s.cfg.pic2Data maskAllByte maskAllByte with
      imrPri := maskAllByte
      imrSec := maskAllByte
      seq := sMasked }

/-- `PIC_UNMASK_KBD` (R83): one write of a constant; also needs `IDT_LOADED`. -/
def execPicUnmaskKbd (s : State) : Out :=
  s.inStage sMasked <|
    if s.idtLoaded = false then .next (s.raise .order)
    else .next
      { s.portWrite s.cfg.pic1Data maskKbdOnlyByte with imrPri := maskKbdOnlyByte, seq := sDone }

end Sys2Proof.Machine
end

