-- ==== Sys2Proof/Machine/Tbc.lean ====
section
/-! DEFINITION. The text-buffer controller (R87): `TB_CLEAR`, `TB_PUTC`, `TB_NEWLINE`. -/

namespace Sys2Proof.Machine

/-- `TB_CLEAR` (R90): admitted in every state. -/
def execTbClear (s : State) : Out := s.clearBuffer

/-- `TB_PUTC ch` (R91): any byte is stored, none is interpreted (R52). -/
def execTbPutc (ch : Byte) (s : State) : Out := s.putCell ch

/-- `TB_NEWLINE` (R93): an aligned cursor still advances a full row (R94). -/
def execTbNewline (s : State) : Out := s.advanceRow

end Sys2Proof.Machine
end

