-- ==== Sys2Proof/Machine/Dispatch.lean ====
section
/-! DEFINITION. One arm per command (R3), each a direct call of its meaning. -/

namespace Sys2Proof.Machine

/-- What a command does (R11): it completes or it sets a bit of `FAULT`. -/
def exec (i : Instr) (s : State) : Host.Outcome State Fault Refusal :=
  match i with
  | .gateSet sel haddr => Sys2Proof.Machine.execGateSet sel haddr s
  | .idtLoad => Sys2Proof.Machine.execIdtLoad s
  | .picIcw1 => Sys2Proof.Machine.execPicIcw1 s
  | .picIcw2 => Sys2Proof.Machine.execPicIcw2 s
  | .picIcw3 => Sys2Proof.Machine.execPicIcw3 s
  | .picIcw4 => Sys2Proof.Machine.execPicIcw4 s
  | .picMaskAll => Sys2Proof.Machine.execPicMaskAll s
  | .picUnmaskKbd => Sys2Proof.Machine.execPicUnmaskKbd s
  | .tbClear => Sys2Proof.Machine.execTbClear s
  | .tbPutc ch => Sys2Proof.Machine.execTbPutc ch s
  | .tbNewline => Sys2Proof.Machine.execTbNewline s
  | .kbdService => Sys2Proof.Machine.execKbdService s

end Sys2Proof.Machine
end

