-- ==== Sys2Proof/Machine/Agents.lean ====
section
/-! DEFINITION. What the agents of R4 do to the block: the command interface (R48, R53), the setting
of `CPU_IF` (R116), and the delivery of a key event (R113, R114). -/

namespace Sys2Proof.Machine

/-- A word handed to the command interface: decoded first (R110); a word that spells no command sets
`F_ILLEGAL` and does nothing else (R53, R108). -/
def issue (w : CommandWord) (s : State) : Out :=
  match decode w with
  | .ok i => exec i s
  | .error _ => .next (s.raise .illegal)

/-- A key event is offered (R113): with no delivery possible nothing happens; otherwise the agent sets
`IN_SERVICE`, checks the gate, and issues `KBD_SERVICE` or raises `F_VECTOR` (R114). -/
def deliver (s : State) : Out :=
  if s.DeliveryEnabled then
    if s.DeliveryLeadsToService then exec .kbdService s.takeInterrupt
    else .next s.badGate
  else .next s

/-- One action of an agent. -/
def act (e : Input) (s : State) : Out :=
  match e with
  | .command w => issue w s
  | .setCpuIf on => .next { s with cpuIf := on }
  | .keyEvent => deliver s

/-- The next input is consumed and acted on; with none left the host idles (R124). -/
def runNextInput (s : State) : Out :=
  match s.inputs with
  | [] => .next s
  | e :: rest => act e { s with inputs := rest }

/-- Put a command word in front of everything the agents do next (log 4). -/
def State.pushCommand (s : State) (w : CommandWord) : State :=
  { s with inputs := .command w :: s.inputs }

end Sys2Proof.Machine
end

