-- ==== Sys2Proof/Machine/Step.lean ====
section
/-! DEFINITION. One step: one action of one agent, whole (R37, R41). -/

namespace Sys2Proof.Machine

/-- One step of the machine. There is no program counter (R15): commands arrive from the agents. -/
def step (s : State) : Host.Outcome State Fault Refusal := runNextInput s

/-- The instruction whose bits are `w` is handed over next (log 4). -/
def State.withFetchWord (s : State) (nbits w : Nat) : State :=
  s.pushCommand (commandWordOfBits nbits w)

end Sys2Proof.Machine
end

