-- ==== Sys2Proof/Machine/Pseudo.lean ====
section
/-! DEFINITION. The pseudo-instructions of R66 to R68 as their expansions, and issuing a sequence of
commands with nothing in between. -/

namespace Sys2Proof.Machine

/-- `TB_WRITE "text"`: "one `TB_PUTC` per byte of the text, in order, first byte first" (R66). -/
def tbWrite (text : List Byte) : List Instr := text.map .tbPutc

/-- `IDT_SETUP sel, haddr`: `GATE_SET sel, haddr` then `IDT_LOAD` (R67). -/
def idtSetup (sel : Half) (haddr : Addr) : List Instr := [.gateSet sel haddr, .idtLoad]

/-- `PIC_CONFIG`: the six controller commands in order (R67). -/
def picConfig : List Instr :=
  [.picIcw1, .picIcw2, .picIcw3, .picIcw4, .picMaskAll, .picUnmaskKbd]

/-- `BOOT`: the entry point's sequence; no newline follows the banner (R68, R127). -/
def boot (c : Config) : List Instr :=
  [.tbClear] ++ tbWrite c.banner ++ idtSetup c.kernelCs c.isrEntry ++ picConfig

/-- The commands issued one after the other, nothing in between; a command that sets a `FAULT` bit
does not stop the later ones (R18, R66). -/
def execAll : List Instr → State → Out
  | [], s => .next s
  | i :: is, s => onNext (exec i s) (execAll is)

/-- The command words of a sequence, as the host hands them over. -/
def commandInputs (is : List Instr) : List Input := is.map fun i => .command (encode i)

/-- The host will issue these commands next, before anything else that is scheduled. -/
def State.schedule (s : State) (is : List Instr) : State :=
  { s with inputs := commandInputs is ++ s.inputs }

end Sys2Proof.Machine
end

