-- ==== Sys2Proof/Machine/Asm.lean ====
section
/-! DEFINITION. The assembler syntax of R65, with the pseudo-instructions of R66 to R68: one command a
line, read from its characters, and written back. -/

namespace Sys2Proof.Machine

/-- What one line spells. -/
inductive AsmLine where
  /-- Nothing, or only a comment. -/
  | blank
  /-- One of the 12 commands (R54). -/
  | command (i : Instr)
  /-- `TB_WRITE "text"` (R66). -/
  | tbWrite (text : List Byte)
  /-- `IDT_SETUP sel, haddr` (R67). -/
  | idtSetup (sel : Half) (haddr : Addr)
  /-- `PIC_CONFIG` (R67). -/
  | picConfig
  /-- `BOOT` (R68). -/
  | boot
deriving DecidableEq, Repr

/-- The commands a line stands for. -/
def AsmLine.expand (c : Config) : AsmLine → List Instr
  | .blank => []
  | .command i => [i]
  | .tbWrite text => Sys2Proof.Machine.tbWrite text
  | .idtSetup sel haddr => Sys2Proof.Machine.idtSetup sel haddr
  | .picConfig => Sys2Proof.Machine.picConfig
  | .boot => Sys2Proof.Machine.boot c

/-! ### Reading -/

/-- Blanks between the parts of a line. -/
def isBlank (ch : Char) : Bool := ch = ' ' || ch = '\t'

/-- The line from its first character that is no blank. -/
def skipBlanks (cs : List Char) : List Char := cs.dropWhile isBlank

/-- Nothing more, or "A `;` starts a comment to the end of the line" (R65). -/
def atEnd (cs : List Char) : Bool :=
  match skipBlanks cs with
  | [] => true
  | ch :: _ => ch = ';'

/-- The value of a digit in base 10 or 16. -/
def digitValue (base : Nat) (ch : Char) : Option Nat :=
  let n := ch.toNat
  let v :=
    if '0'.toNat ≤ n ∧ n ≤ '9'.toNat then n - '0'.toNat
    else if 'A'.toNat ≤ n ∧ n ≤ 'F'.toNat then n - 'A'.toNat + 10
    else if 'a'.toNat ≤ n ∧ n ≤ 'f'.toNat then n - 'a'.toNat + 10
    else base
  if v < base then some v else none

/-- The digits at the front of the line, added to what has been read. -/
def readDigits (base : Nat) : List Char → Nat → Nat × List Char
  | [], acc => (acc, [])
  | ch :: cs, acc =>
    match digitValue base ch with
    | some d => readDigits base cs (acc * base + d)
    | none => (acc, ch :: cs)

/-- At least one digit of the base, then as many as follow. -/
def readNumber (base : Nat) : List Char → Option (Nat × List Char)
  | [] => none
  | ch :: cs => (digitValue base ch).map fun d => readDigits base cs d

/-- A numeral of R9: "`0x…` is hexadecimal; an unprefixed numeral is decimal". -/
def readNumeral : List Char → Option (Nat × List Char)
  | '0' :: 'x' :: cs => readNumber 16 cs
  | cs => readNumber 10 cs

/-- The one-byte code of a character (R59). -/
def charByte (ch : Char) : Option Byte :=
  if ch.toNat < 256 then some (BitVec.ofNat 8 ch.toNat) else none

/-- A numeral that fits in `w` bits, at the end of the line. -/
def lastOperand (w : Nat) (cs : List Char) : Option (BitVec w) :=
  match readNumeral (skipBlanks cs) with
  | some (v, rest) => if v < 2 ^ w ∧ atEnd rest = true then some (BitVec.ofNat w v) else none
  | none => none

/-- `sel, haddr`: "selector first, then handler address" (R65). -/
def selHaddr (cs : List Char) : Option (Half × Addr) :=
  match readNumeral (skipBlanks cs) with
  | some (v, rest) =>
    match skipBlanks rest with
    | ',' :: rest' =>
      if v < 2 ^ 16 then (lastOperand 32 rest').map fun a => (BitVec.ofNat 16 v, a) else none
    | _ => none
  | none => none

/-- The operand of `TB_PUTC`: "a numeral or a single character in single quotes standing for its
one-byte code" (R65). DESIGN CHOICE (log 23): R65 has no escapes, so the character between the quotes
may be any one, a quote too (three single quotes in a row are the quote character). -/
def charOperand (cs : List Char) : Option Byte :=
  match skipBlanks cs with
  | '\'' :: ch :: '\'' :: rest => if atEnd rest then charByte ch else none
  | _ => lastOperand 8 cs

/-- The bytes up to the closing double quote, which must end the line. DESIGN CHOICE (log 23): R66 has
no escapes, so the first double quote closes the text, and no text written this way holds one. -/
def quotedText : List Char → Option (List Byte)
  | [] => none
  | ch :: cs =>
    if ch = '"' then (if atEnd cs then some [] else none)
    else
      match charByte ch, quotedText cs with
      | some b, some bs => some (b :: bs)
      | _, _ => none

/-- A command with no operand. -/
def noOperand (l : AsmLine) (cs : List Char) : Option AsmLine := if atEnd cs then some l else none

/-- The characters of a mnemonic: capitals, digits, underscores. -/
def isMnemonicChar (ch : Char) : Bool :=
  ('A'.toNat ≤ ch.toNat && ch.toNat ≤ 'Z'.toNat) || ('0'.toNat ≤ ch.toNat && ch.toNat ≤ '9'.toNat)
    || ch = '_'

/-- The mnemonic, then its operands (R65). -/
def parseCommand (name rest : List Char) : Option AsmLine :=
  if name = "GATE_SET".toList then (selHaddr rest).map fun p => .command (.gateSet p.1 p.2)
  else if name = "IDT_LOAD".toList then noOperand (.command .idtLoad) rest
  else if name = "PIC_ICW1".toList then noOperand (.command .picIcw1) rest
  else if name = "PIC_ICW2".toList then noOperand (.command .picIcw2) rest
  else if name = "PIC_ICW3".toList then noOperand (.command .picIcw3) rest
  else if name = "PIC_ICW4".toList then noOperand (.command .picIcw4) rest
  else if name = "PIC_MASK_ALL".toList then noOperand (.command .picMaskAll) rest
  else if name = "PIC_UNMASK_KBD".toList then noOperand (.command .picUnmaskKbd) rest
  else if name = "TB_CLEAR".toList then noOperand (.command .tbClear) rest
  else if name = "TB_PUTC".toList then (charOperand rest).map fun b => .command (.tbPutc b)
  else if name = "TB_NEWLINE".toList then noOperand (.command .tbNewline) rest
  else if name = "KBD_SERVICE".toList then noOperand (.command .kbdService) rest
  else if name = "TB_WRITE".toList then
    match skipBlanks rest with
    | '"' :: cs => (quotedText cs).map .tbWrite
    | _ => none
  else if name = "IDT_SETUP".toList then (selHaddr rest).map fun p => .idtSetup p.1 p.2
  else if name = "PIC_CONFIG".toList then noOperand .picConfig rest
  else if name = "BOOT".toList then noOperand .boot rest
  else none

/-- One line of the syntax of R65; `none` where it spells nothing. -/
def parseLine (cs : List Char) : Option AsmLine :=
  if atEnd cs then some .blank
  else
    let line := skipBlanks cs
    parseCommand (line.takeWhile isMnemonicChar) (line.dropWhile isMnemonicChar)

/-! ### Writing -/

/-- A hexadecimal digit. -/
def hexChar (d : Nat) : Char :=
  if d < 10 then Char.ofNat ('0'.toNat + d) else Char.ofNat ('A'.toNat + (d - 10))

/-- The `n` hexadecimal digits of a value. -/
def hexDigits : Nat → Nat → List Char
  | 0, _ => []
  | n + 1, v => hexDigits n (v / 16) ++ [hexChar (v % 16)]

/-- A numeral `0x…` of `n` digits (R9). -/
def hexNumeral (n v : Nat) : List Char := '0' :: 'x' :: hexDigits n v

/-- A command as one line: the mnemonic, then its operands separated by commas (R65). -/
def render : Instr → List Char
  | .gateSet sel haddr =>
    "GATE_SET ".toList ++ hexNumeral 4 sel.toNat ++ ", ".toList ++ hexNumeral 8 haddr.toNat
  | .tbPutc ch => "TB_PUTC ".toList ++ hexNumeral 2 ch.toNat
  | .idtLoad => "IDT_LOAD".toList
  | .picIcw1 => "PIC_ICW1".toList
  | .picIcw2 => "PIC_ICW2".toList
  | .picIcw3 => "PIC_ICW3".toList
  | .picIcw4 => "PIC_ICW4".toList
  | .picMaskAll => "PIC_MASK_ALL".toList
  | .picUnmaskKbd => "PIC_UNMASK_KBD".toList
  | .tbClear => "TB_CLEAR".toList
  | .tbNewline => "TB_NEWLINE".toList
  | .kbdService => "KBD_SERVICE".toList

end Sys2Proof.Machine
end

