-- ==== Sys2Proof/WellFormed.lean ====
section
/-! DEFINITION. What is well formed: every command (R51 and R52 accept every operand value), and
the configurations that meet the constraints of R8. -/

namespace Sys2Proof

/-- A command is well formed whatever its operands: their widths are in the syntax, and "Every value
of `SEL` and `HADDR` is accepted" (R51), "Every value of `CH` from 0x00 to 0xFF is accepted" (R52). -/
def Instr.wf : Instr → Bool
  | .gateSet _ _ => true
  | .idtLoad => true
  | .picIcw1 => true
  | .picIcw2 => true
  | .picIcw3 => true
  | .picIcw4 => true
  | .picMaskAll => true
  | .picUnmaskKbd => true
  | .tbClear => true
  | .tbPutc _ => true
  | .tbNewline => true
  | .kbdService => true

namespace Config

/-- The six port numbers, in the order of R7. -/
def ports (c : Config) : List Port :=
  [c.pic1Cmd, c.pic1Data, c.pic2Cmd, c.pic2Data, c.kbdData, c.kbdStatus]

/-- "the six port numbers are pairwise distinct" (R8). -/
abbrev PortsDistinct (c : Config) : Prop := c.ports.Pairwise (· ≠ ·)

/-- The offsets are distinct, above the CPU-reserved range, leave room for eight lines, and are
multiples of 8 (R8). -/
abbrev OffsetsOk (c : Config) : Prop :=
  c.voffPri ≠ c.voffSec ∧ 32 ≤ c.voffPri.toNat ∧ 32 ≤ c.voffSec.toNat ∧
  c.voffPri.toNat + 7 ≤ 255 ∧ c.voffSec.toNat + 7 ≤ 255 ∧
  c.voffPri.toNat % 8 = 0 ∧ c.voffSec.toNat % 8 = 0

/-- `ENTER_CODE < 128` (R8). -/
abbrev EnterCodeOk (c : Config) : Prop := c.enterCode.toNat < 128

/-- `COLS ≥ 1`, `ROWS ≥ 1`, `LEN ≤ 65534` (R8). -/
abbrev GeometryOk (c : Config) : Prop := 1 ≤ c.cols ∧ 1 ≤ c.rows ∧ c.len ≤ 65534

/-- Neither region wraps around the 32-bit address space (R8). -/
abbrev RegionsInSpace (c : Config) : Prop :=
  c.idtBase.toNat + ivtBytes ≤ 2 ^ 32 ∧ c.tbBase.toNat + c.len ≤ 2 ^ 32

/-- The two regions do not overlap (R8). -/
abbrev RegionsDisjoint (c : Config) : Prop :=
  c.idtBase.toNat + ivtBytes ≤ c.tbBase.toNat ∨ c.tbBase.toNat + c.len ≤ c.idtBase.toNat

/-- The constraints of R8, which every configuration must meet. -/
abbrev wf (c : Config) : Prop :=
  c.PortsDistinct ∧ c.OffsetsOk ∧ c.EnterCodeOk ∧ c.GeometryOk ∧ c.RegionsInSpace ∧
  c.RegionsDisjoint

end Config

end Sys2Proof
end

