-- ==== Sys2Proof/Safety.lean ====
section
/-! DEFINITION. What a good state and a good run are, in the terms the statements use: the
invariants the rules state, the observation a claim may make (R138), and the runs of R130. -/

namespace Sys2Proof.Machine

/-- "A run whose end state has `FAULT ≠ 0` has gone wrong" (R130). -/
abbrev State.GoneWrong (s : State) : Prop := s.fault ≠ 0

/-- "dead for the keyboard": an unacknowledged delivery, so no further one (R114, R130). -/
abbrev State.DeadKeyboard (s : State) : Prop := s.inService = true

/-- "`0 ≤ CURSOR ≤ LEN` and `CURSOR` is even" (R17, R89). -/
abbrev State.CursorOk (s : State) : Prop :=
  s.cursor.toNat ≤ s.cfg.len ∧ s.cursor.toNat % 2 = 0

/-- `SEQ` is a stage (R16); "`S_DONE` is reachable only with `IDT_LOADED = 1` and `IDT_LOADED = 1`
only with `GATE_DONE = 1`" (R98). -/
abbrev State.StageOk (s : State) : Prop :=
  s.seq.toNat ≤ 6 ∧ (s.idtLoaded = true → s.gateDone = true) ∧ (s.seq = sDone → s.idtLoaded = true)

/-- What the stages say about the shadows: the latches from `S_REMAP` on (R79), the masks in
`S_MASKED` (R82) and in `S_DONE` (R85). -/
abbrev State.ShadowsOk (s : State) : Prop :=
  (2 ≤ s.seq.toNat → s.voffPriL = s.cfg.voffPri ∧ s.voffSecL = s.cfg.voffSec) ∧
  (s.seq = sMasked → s.imrPri = 0xFF ∧ s.imrSec = 0xFF) ∧
  (s.seq = sDone → s.imrPri = 0xFD ∧ s.imrSec = 0xFF)

/-- After `IDT_LOAD`, `IDTR = (0x07FF, IDT_BASE)` (R21). -/
abbrev State.IdtrOk (s : State) : Prop :=
  s.idtLoaded = true → s.idtr.limit = 0x07FF ∧ s.idtr.base = s.cfg.idtBase

/-- An address of the text buffer, `TB_BASE … TB_BASE + LEN − 1` (R26). -/
abbrev InTb (c : Config) (a : Nat) : Prop := c.tbAddr 0 ≤ a ∧ a < c.tbAddr c.len

/-- An address of the keyboard's table entry (R25). -/
abbrev InKbdGate (c : Config) (a : Nat) : Prop := c.kbdEntry ≤ a ∧ a < c.kbdEntry + 8

/-- The block writes only `TB` (R92) and the one entry `KBD_VECTOR` (R75), and the entry only when
`GATE_DONE` (R70). -/
abbrev State.WritesOk (s : State) : Prop :=
  ∀ p ∈ s.mem, InTb s.cfg p.1 ∨ (s.gateDone = true ∧ InKbdGate s.cfg p.1)

/-- Once `GATE_DONE`, the 8 bytes of the entry are all written, the reserved byte is 0x00 and the type
byte is `GATE_ATTR` (R55, R56, R70). -/
abbrev State.GateOk (s : State) : Prop :=
  s.gateDone = true →
    (∀ i < 8, (s.mem.read (s.cfg.kbdEntry + i)).isSome = true) ∧
    s.mem.read (s.cfg.kbdEntry + 4) = some 0x00 ∧
    s.mem.read (s.cfg.kbdEntry + 5) = some s.cfg.gateAttr

/-- A delivery is outstanding only after configuration (R113). -/
abbrev State.ServiceOk (s : State) : Prop := s.inService = true → s.seq = sDone

/-- The invariant of the machine: a configuration of R8, a canonical memory, and all of the above. -/
structure State.Inv (s : State) : Prop where
  cfgWf : s.cfg.wf
  memWf : s.mem.wf
  cursorOk : s.CursorOk
  stageOk : s.StageOk
  shadowsOk : s.ShadowsOk
  idtrOk : s.IdtrOk
  writesOk : s.WritesOk
  gateOk : s.GateOk
  serviceOk : s.ServiceOk

/-- The start of a run of R130: reset in configuration `c`, with what the agents will do and what the
port reads will answer. -/
def State.startOfRun (c : Config) (ins : List Input) (answers : List Byte) : State :=
  { State.resetWith c with inputs := ins, portAnswers := answers }

/-- Bytes of a run written at `a …` and read back, everything else as before. -/
def Memory.StoredAt (m m' : Memory) (a : Nat) (bs : List Byte) : Prop :=
  m'.readBytes a bs.length = bs.map some ∧
  ∀ x, (x < a ∨ a + bs.length ≤ x) → m'.read x = m.read x

/-- Two memories `m` and `n` became `m'` and `n'` by the same stores: at every address either both are
as they were, or both hold the same byte. -/
def Memory.StoredAlike (m m' n n' : Memory) : Prop :=
  ∀ x, (m'.read x = m.read x ∧ n'.read x = n.read x) ∨ n'.read x = m'.read x

/-- What the block writes to the devices, port by port: the rows of R122's table whose direction is
"write". -/
def deviceWrites (c : Config) : List (Port × Byte) :=
  [ (c.pic1Cmd, c.icw1), (c.pic1Cmd, c.eoiCmd),
    (c.pic1Data, c.voffPri), (c.pic1Data, c.icw3Pri), (c.pic1Data, c.icw4), (c.pic1Data, 0xFF),
    (c.pic1Data, 0xFD),
    (c.pic2Cmd, c.icw1),
    (c.pic2Data, c.voffSec), (c.pic2Data, c.icw3Sec), (c.pic2Data, c.icw4), (c.pic2Data, 0xFF) ]

/-- When a command faults with `F_ORDER` (R107: "`F_ORDER` in full"). The text-buffer commands never
do. -/
def OrderFaults (i : Instr) (s : State) : Prop :=
  match i with
  | .gateSet _ _ => s.gateDone = true
  | .idtLoad => s.gateDone = false ∨ s.idtLoaded = true
  | .picIcw1 => s.seq ≠ 0
  | .picIcw2 => s.seq ≠ 1
  | .picIcw3 => s.seq ≠ 2
  | .picIcw4 => s.seq ≠ 3
  | .picMaskAll => s.seq ≠ 4
  | .picUnmaskKbd => s.seq ≠ 5 ∨ s.idtLoaded = false
  | .tbClear => False
  | .tbPutc _ => False
  | .tbNewline => False
  | .kbdService => ¬ s.Deliverable

/-- The characters of a text interleaved with the attribute byte, "`[c, c+2*len(s))` equal the
interleaving of `s`'s characters with the fixed attribute byte" (R66). -/
def interleave (attr : Byte) : List Byte → List Byte
  | [] => []
  | ch :: text => ch :: attr :: interleave attr text

end Sys2Proof.Machine
end

