-- ==== Sys2Proof/Certificates/Slice0/Obligations.lean ====
section
/-! DEFINITION. The statements for the provers, from the numbered rules of spec/. A statement about an
instruction's result is an equation `exec i s = .next t`, so it also says that the instruction
completes and what it leaves unchanged: every field not named in the update keeps its value, and where
memory changes, every byte outside the named addresses reads as before. -/

open Sys2Proof Sys2Proof.Machine

/-! ### Encoding -/

/-- R49 to R52, R63: decoding the word of a command gives it back, for every operand. -/
def Obligations.DecodeOfEncodeIsIdentity : Prop :=
  ∀ i : Instr, i.wf = true → decode (encode i) = .ok i

/-- R53: "every word is either one of the 12 commands or illegal": a word that decodes is the word of
the command it decodes to, so no bit of it is dropped. -/
def Obligations.EncodeOfDecodeIsIdentity : Prop :=
  ∀ (w : CommandWord) (i : Instr), decode w = .ok i → encode i = w

/-- R54: a word decodes to the command of a row exactly when it matches the row, and no word matches
two rows. -/
def Obligations.DecoderAgreesWithOpcodeMap : Prop :=
  (∀ r ∈ opcodeTable, ∀ w : CommandWord,
    (∃ i, decode w = .ok i ∧ mnemonic i = r.mnemonic) ↔ w &&& r.mask = r.pattern) ∧
  (∀ w : CommandWord, ∀ r ∈ opcodeTable, ∀ r' ∈ opcodeTable, r.Matches w → r'.Matches w → r = r')

/-- 95_test_vectors.md 2.1: words written out from the formats of R49 to R52. -/
def Obligations.SpelledWordsDecode : Prop :=
  decode 0x1000000800101234 = .ok (.gateSet 0x0008 0x00101234) ∧
  decode 0x10000010DEADBEEF = .ok (.gateSet 0x0010 0xDEADBEEF) ∧
  decode 0x2500000000000000 = .ok .picUnmaskKbd ∧
  decode 0x31000000000000FF = .ok (.tbPutc 0xFF) ∧
  decode 0x4000000000000000 = .ok .kbdService ∧
  decode 0x1001000800101234 = .error .nonzeroReserved ∧
  decode 0x3100000000000148 = .error .nonzeroReserved ∧
  decode 0x2600000000000000 = .error .unknownOpcode ∧
  decode 0x0000000000000000 = .error .unknownOpcode ∧
  decode 0xFFFFFFFFFFFFFFFF = .error .unknownOpcode

/-- R65: the line written for a command reads as that command (the spellings R65 leaves open are the
model's choice: log 23). -/
def Obligations.ParseOfRenderIsIdentity : Prop :=
  ∀ i : Instr, parseLine (render i) = some (.command i)

/-! ### The step and the agents -/

/-- A step runs the decoded command: the word is used up, and then the command does what `exec` says.
Nothing else is added around `exec` (there is no program counter, R15). The list of inputs is the
model's choice (log 4). -/
def Obligations.StepRunsTheDecodedCommand : Prop :=
  ∀ (s : State) (w : CommandWord) (rest : List Input) (i : Instr),
    s.inputs = .command w :: rest → i.wf = true → decode w = .ok i →
    step s = exec i { s with inputs := rest }

/-- The word of a command, handed over next, is run by the very next step, for every command, operand
and state (handing over is the model's choice of form: log 4). -/
def Obligations.HandedWordRunsNext : Prop :=
  ∀ (s : State) (i : Instr), step (s.withFetchWord 64 (encode i).toNat) = exec i s

/-- R53, R108, R109: a word handed over that matches no row sets `F_ILLEGAL` and makes no other change;
the all-zero and the all-ones word are such words. That in a step it is the next input and is used up
is the model's choice (log 4). -/
def Obligations.IllegalWordOnlySetsIllegalBit : Prop :=
  (∀ (s : State) (w : CommandWord), (∀ r ∈ opcodeTable, w &&& r.mask ≠ r.pattern) →
    issue w s = .next { s with fault := s.fault ||| 0b0100 }) ∧
  (∀ (s : State) (w : CommandWord) (rest : List Input),
    s.inputs = .command w :: rest → (∀ r ∈ opcodeTable, w &&& r.mask ≠ r.pattern) →
    step s = .next { s with inputs := rest, fault := s.fault ||| 0b0100 }) ∧
  (∀ r ∈ opcodeTable, (0 : CommandWord) &&& r.mask ≠ r.pattern) ∧
  (∀ r ∈ opcodeTable, (BitVec.allOnes 64 : CommandWord) &&& r.mask ≠ r.pattern)

/-- R124: with nothing to do the host idles, and nothing changes (the schedule is the model's: log 4). -/
def Obligations.IdleStepChangesNothing : Prop :=
  ∀ s : State, s.inputs = [] → step s = .next s

/-- R116: the host's setting of `CPU_IF` is the only thing a step can do to it (the list of inputs is
the model's choice: log 4). -/
def Obligations.OnlyTheHostSetsCpuIf : Prop :=
  (∀ (s : State) (on : Bool) (rest : List Input), s.inputs = .setCpuIf on :: rest →
    step s = .next { s with inputs := rest, cpuIf := on }) ∧
  (∀ s t : State, step s = .next t → (∀ on rest, s.inputs ≠ .setCpuIf on :: rest) →
    t.cpuIf = s.cpuIf)

/-! ### GDB -/

/-- R70: the eight bytes of the gate, the flag, and nothing else; a second one faults. -/
def Obligations.GateSetInstallsTheGate : Prop :=
  (∀ (sel : Half) (haddr : Addr),
    decode ((0x10 : Byte) ++ (0x00 : Byte) ++ sel ++ haddr) = .ok (.gateSet sel haddr)) ∧
  ∀ (s : State) (sel : Half) (haddr : Addr), s.cfg.wf →
    (s.gateDone = false → ∃ m : Memory,
      exec (.gateSet sel haddr) s = .next { s with mem := m, gateDone := true } ∧
      m.read (s.cfg.kbdEntry + 0) = some (haddr.extractLsb' 0 8) ∧
      m.read (s.cfg.kbdEntry + 1) = some (haddr.extractLsb' 8 8) ∧
      m.read (s.cfg.kbdEntry + 2) = some (sel.extractLsb' 0 8) ∧
      m.read (s.cfg.kbdEntry + 3) = some (sel.extractLsb' 8 8) ∧
      m.read (s.cfg.kbdEntry + 4) = some 0x00 ∧
      m.read (s.cfg.kbdEntry + 5) = some s.cfg.gateAttr ∧
      m.read (s.cfg.kbdEntry + 6) = some (haddr.extractLsb' 16 8) ∧
      m.read (s.cfg.kbdEntry + 7) = some (haddr.extractLsb' 24 8) ∧
      ∀ a, (a < s.cfg.kbdEntry ∨ s.cfg.kbdEntry + 8 ≤ a) → m.read a = s.mem.read a) ∧
    (s.gateDone = true →
      exec (.gateSet sel haddr) s = .next { s with fault := s.fault ||| 0b0010 })

/-- R71: the installed entry decomposes back into the operands, for every operand pair. -/
def Obligations.GateDecomposesIntoOperands : Prop :=
  ∀ (s : State) (sel : Half) (haddr : Addr), s.cfg.wf → s.gateDone = false →
    ∃ (t : State) (g : BitVec 64), exec (.gateSet sel haddr) s = .next t ∧
      t.mem.readBytes s.cfg.kbdEntry 8 = (littleEndian 8 g).map some ∧
      g.extractLsb' 48 16 ++ g.extractLsb' 0 16 = haddr ∧
      g.extractLsb' 16 16 = sel ∧ g.extractLsb' 32 8 = 0x00 ∧
      g.extractLsb' 40 8 = s.cfg.gateAttr

/-- R72: the table descriptor goes to `IDTR`, the flag is set; out of order it faults. -/
def Obligations.IdtLoadSetsIdtr : Prop :=
  decode 0x1100000000000000 = .ok .idtLoad ∧ ∀ s : State,
    (s.gateDone = true → s.idtLoaded = false →
      exec .idtLoad s =
        .next { s with idtr := ⟨0x07FF, s.cfg.idtBase⟩, idtLoaded := true }) ∧
    (s.gateDone = false ∨ s.idtLoaded = true →
      exec .idtLoad s = .next { s with fault := s.fault ||| 0b0010 })

/-- R58: the fields of the two words, and the 48 bits the load consumes. -/
def Obligations.TableDescriptorPacksAndUnpacks : Prop :=
  ∀ (limit : Half) (base : Addr),
    (packTableDescriptor limit base).1.extractLsb' 0 16 = limit ∧
    (packTableDescriptor limit base).1.extractLsb' 16 16 = base.extractLsb' 0 16 ∧
    (packTableDescriptor limit base).2.extractLsb' 0 16 = base.extractLsb' 16 16 ∧
    (packTableDescriptor limit base).2.extractLsb' 16 16 = 0 ∧
    unpackTableDescriptor (packTableDescriptor limit base).1 (packTableDescriptor limit base).2
      = ⟨limit, base⟩

/-! ### PCS -/

/-- R78. That the two mask shadows then hold some bytes, of which nothing is said, and that the count
of free values goes up by one, is the model's choice (log 24). -/
def Obligations.PicIcw1Result : Prop :=
  decode 0x2000000000000000 = .ok .picIcw1 ∧ ∀ s : State,
    (s.seq = 0 → ∃ pri sec : Byte, exec .picIcw1 s = .next { s with
      seq := 1
      imrPri := pri
      imrSec := sec
      draws := s.draws + 1
      portLog := s.portLog ++
        [⟨.write, s.cfg.pic1Cmd, s.cfg.icw1⟩, ⟨.write, s.cfg.pic2Cmd, s.cfg.icw1⟩] }) ∧
    (s.seq ≠ 0 → exec .picIcw1 s = .next { s with fault := s.fault ||| 0b0010 })

/-- R79. -/
def Obligations.PicIcw2Result : Prop :=
  decode 0x2100000000000000 = .ok .picIcw2 ∧ ∀ s : State,
    (s.seq = 1 → exec .picIcw2 s = .next { s with
      seq := 2
      voffPriL := s.cfg.voffPri
      voffSecL := s.cfg.voffSec
      portLog := s.portLog ++
        [⟨.write, s.cfg.pic1Data, s.cfg.voffPri⟩, ⟨.write, s.cfg.pic2Data, s.cfg.voffSec⟩] }) ∧
    (s.seq ≠ 1 → exec .picIcw2 s = .next { s with fault := s.fault ||| 0b0010 })

/-- R80. -/
def Obligations.PicIcw3Result : Prop :=
  decode 0x2200000000000000 = .ok .picIcw3 ∧ ∀ s : State,
    (s.seq = 2 → exec .picIcw3 s = .next { s with
      seq := 3
      portLog := s.portLog ++
        [⟨.write, s.cfg.pic1Data, s.cfg.icw3Pri⟩, ⟨.write, s.cfg.pic2Data, s.cfg.icw3Sec⟩] }) ∧
    (s.seq ≠ 2 → exec .picIcw3 s = .next { s with fault := s.fault ||| 0b0010 })

/-- R81. -/
def Obligations.PicIcw4Result : Prop :=
  decode 0x2300000000000000 = .ok .picIcw4 ∧ ∀ s : State,
    (s.seq = 3 → exec .picIcw4 s = .next { s with
      seq := 4
      portLog := s.portLog ++
        [⟨.write, s.cfg.pic1Data, s.cfg.icw4⟩, ⟨.write, s.cfg.pic2Data, s.cfg.icw4⟩] }) ∧
    (s.seq ≠ 3 → exec .picIcw4 s = .next { s with fault := s.fault ||| 0b0010 })

/-- R82. -/
def Obligations.PicMaskAllResult : Prop :=
  decode 0x2400000000000000 = .ok .picMaskAll ∧ ∀ s : State,
    (s.seq = 4 → exec .picMaskAll s = .next { s with
      seq := 5
      imrPri := 0xFF
      imrSec := 0xFF
      portLog := s.portLog ++
        [⟨.write, s.cfg.pic1Data, 0xFF⟩, ⟨.write, s.cfg.pic2Data, 0xFF⟩] }) ∧
    (s.seq ≠ 4 → exec .picMaskAll s = .next { s with fault := s.fault ||| 0b0010 })

/-- R83: one write of 0xFD; refused in another stage and before the table is loaded. -/
def Obligations.PicUnmaskKbdResult : Prop :=
  decode 0x2500000000000000 = .ok .picUnmaskKbd ∧ ∀ s : State,
    (s.seq = 5 → s.idtLoaded = true → exec .picUnmaskKbd s = .next { s with
      seq := 6
      imrPri := 0xFD
      portLog := s.portLog ++ [⟨.write, s.cfg.pic1Data, 0xFD⟩] }) ∧
    (s.seq ≠ 5 ∨ s.idtLoaded = false →
      exec .picUnmaskKbd s = .next { s with fault := s.fault ||| 0b0010 })

/-- R77: the `k`-th `PIC_*` command is admitted in stage `k` alone (the last only with `IDT_LOADED`),
and then `SEQ` goes up by one; once `SEQ = S_DONE` none is admitted. -/
def Obligations.EachPicCommandHasOneStage : Prop :=
  ∀ (s : State) (k : Nat) (i : Instr), picConfig[k]? = some i →
    (s.seq.toNat = k → (k = 5 → s.idtLoaded = true) →
      ∃ t, exec i s = .next t ∧ t.seq.toNat = k + 1 ∧ t.fault = s.fault) ∧
    (s.seq.toNat ≠ k ∨ (k = 5 ∧ s.idtLoaded = false) →
      exec i s = .next { s with fault := s.fault ||| 0b0010 })

/-- R84: the six commands in order append exactly the eleven writes of the table; the stages, latches
and masks are those of R78 to R83. That the count of free values goes up by one is the model's choice
(log 24). -/
def Obligations.PicConfigAppendsElevenWrites : Prop :=
  ∀ s : State, s.seq = 0 → s.idtLoaded = true →
    execAll picConfig s = .next { s with
      seq := 6
      imrPri := 0xFD
      imrSec := 0xFF
      voffPriL := s.cfg.voffPri
      voffSecL := s.cfg.voffSec
      draws := s.draws + 1
      portLog := s.portLog ++
        [ ⟨.write, s.cfg.pic1Cmd, s.cfg.icw1⟩, ⟨.write, s.cfg.pic2Cmd, s.cfg.icw1⟩,
          ⟨.write, s.cfg.pic1Data, s.cfg.voffPri⟩, ⟨.write, s.cfg.pic2Data, s.cfg.voffSec⟩,
          ⟨.write, s.cfg.pic1Data, s.cfg.icw3Pri⟩, ⟨.write, s.cfg.pic2Data, s.cfg.icw3Sec⟩,
          ⟨.write, s.cfg.pic1Data, s.cfg.icw4⟩, ⟨.write, s.cfg.pic2Data, s.cfg.icw4⟩,
          ⟨.write, s.cfg.pic1Data, 0xFF⟩, ⟨.write, s.cfg.pic2Data, 0xFF⟩,
          ⟨.write, s.cfg.pic1Data, 0xFD⟩ ] }

/-- R85: in `S_DONE` the masks and latches hold these values, and no step changes them or leaves the
stage. -/
def Obligations.ConfiguredShadowsNeverChange : Prop :=
  ∀ s : State, s.Inv → s.seq = sDone →
    (s.imrPri = 0xFD ∧ s.imrSec = 0xFF ∧ s.voffPriL = s.cfg.voffPri ∧
      s.voffSecL = s.cfg.voffSec) ∧
    ∀ t, step s = .next t →
      t.seq = s.seq ∧ t.imrPri = s.imrPri ∧ t.imrSec = s.imrSec ∧
      t.voffPriL = s.voffPriL ∧ t.voffSecL = s.voffSecL

/-! ### TBC -/

/-- R90: every cell becomes (`SPACE`, `TB_ATTR`), the cursor 0, nothing else changes. -/
def Obligations.TbClearFillsTheBuffer : Prop :=
  decode 0x3000000000000000 = .ok .tbClear ∧ ∀ s : State, s.cfg.wf → ∃ m : Memory,
    exec .tbClear s = .next { s with mem := m, cursor := 0 } ∧
    (∀ k, k < s.cfg.rows * s.cfg.cols →
      m.read (s.cfg.tbAddr (2 * k)) = some s.cfg.space ∧
      m.read (s.cfg.tbAddr (2 * k + 1)) = some s.cfg.tbAttr) ∧
    ∀ a, (a < s.cfg.tbAddr 0 ∨ s.cfg.tbAddr s.cfg.len ≤ a) → m.read a = s.mem.read a

/-- R90: "issued twice in a row, the second changes nothing". -/
def Obligations.SecondTbClearChangesNothing : Prop :=
  ∀ s t : State, exec .tbClear s = .next t → exec .tbClear t = .next t

/-- R91: the cell at the cursor, the cursor plus two; at the end a fault and nothing else. -/
def Obligations.TbPutcStoresTheCell : Prop :=
  (∀ ch : Byte, decode ((0x31 : Byte) ++ (0 : BitVec 48) ++ ch) = .ok (.tbPutc ch)) ∧
  ∀ (s : State) (ch : Byte), s.cfg.wf →
    (s.cursor.toNat + 2 ≤ s.cfg.len → ∃ m : Memory,
      exec (.tbPutc ch) s = .next { s with mem := m, cursor := s.cursor + 2 } ∧
      (s.cursor + 2).toNat = s.cursor.toNat + 2 ∧
      m.read (s.cfg.tbAddr s.cursor.toNat) = some ch ∧
      m.read (s.cfg.tbAddr s.cursor.toNat + 1) = some s.cfg.tbAttr ∧
      ∀ a, (a < s.cfg.tbAddr s.cursor.toNat ∨ s.cfg.tbAddr s.cursor.toNat + 2 ≤ a) →
        m.read a = s.mem.read a) ∧
    (s.cfg.len < s.cursor.toNat + 2 →
      exec (.tbPutc ch) s = .next { s with fault := s.fault ||| 0b0001 })

/-- R93: the document's formula; a fault and nothing else when it passes the end, which with a cursor
of R89 is exactly at the end. -/
def Obligations.TbNewlineFollowsTheFormula : Prop :=
  decode 0x3200000000000000 = .ok .tbNewline ∧ ∀ (s : State) (new : Nat), s.cfg.wf →
    new = s.cursor.toNat + (2 * s.cfg.cols - s.cursor.toNat % (2 * s.cfg.cols)) →
    (new ≤ s.cfg.len →
      exec .tbNewline s = .next { s with cursor := BitVec.ofNat 16 new } ∧
      (BitVec.ofNat 16 new).toNat = new) ∧
    (s.cfg.len < new →
      exec .tbNewline s = .next { s with fault := s.fault ||| 0b0001 }) ∧
    (s.CursorOk → (s.cfg.len < new ↔ s.cursor.toNat = s.cfg.len))

/-- R95 (a) to (e), of a newline that completes. -/
def Obligations.NewlineReachesTheNextRow : Prop :=
  ∀ s : State, s.cfg.wf → s.cursor.toNat < s.cfg.len →
    ∃ t : State, exec .tbNewline s = .next t ∧
      t.cursor.toNat % s.cfg.rowBytes = 0 ∧
      s.cursor.toNat < t.cursor.toNat ∧
      t.cursor.toNat - s.cursor.toNat ≤ s.cfg.rowBytes ∧
      (∀ n, n % s.cfg.rowBytes = 0 → s.cursor.toNat < n → t.cursor.toNat ≤ n) ∧
      t.cursor.toNat / s.cfg.rowBytes = s.cursor.toNat / s.cfg.rowBytes + 1

/-- R106: with a cursor of R89, `TB_PUTC` and `TB_NEWLINE` raise `F_BOUNDS` exactly at the end of the
buffer, and `TB_CLEAR` never does. -/
def Obligations.BoundsFaultExactlyAtTheEnd : Prop :=
  ∀ (s : State) (ch : Byte), s.cfg.wf → s.CursorOk →
    (exec (.tbPutc ch) s = .next (s.raise .bounds) ↔ s.cursor.toNat = s.cfg.len) ∧
    (exec .tbNewline s = .next (s.raise .bounds) ↔ s.cursor.toNat = s.cfg.len) ∧
    ∀ t, exec .tbClear s = .next t → t.fault = s.fault

/-- R66: `TB_WRITE` of a text that fits is the document's `write`; of one that does not, the characters
that fit are written, the rest are dropped and `F_BOUNDS` is set. -/
def Obligations.TbWriteInterleavesTheText : Prop :=
  ∀ (s : State) (text : List Byte), s.cfg.wf → s.CursorOk →
    (s.cursor.toNat + 2 * text.length ≤ s.cfg.len → ∃ (m : Memory) (c : BitVec 16),
      execAll (tbWrite text) s = .next { s with mem := m, cursor := c } ∧
      c.toNat = s.cursor.toNat + 2 * text.length ∧
      Memory.StoredAt s.mem m (s.cfg.tbAddr s.cursor.toNat) (interleave s.cfg.tbAttr text)) ∧
    (s.cfg.len < s.cursor.toNat + 2 * text.length → ∃ (m : Memory) (c : BitVec 16),
      execAll (tbWrite text) s =
        .next { s with mem := m, cursor := c, fault := s.fault ||| 0b0001 } ∧
      c.toNat = s.cfg.len ∧
      Memory.StoredAt s.mem m (s.cfg.tbAddr s.cursor.toNat)
        (interleave s.cfg.tbAttr (text.take ((s.cfg.len - s.cursor.toNat) / 2))))

/-- R89, R96: in a configuration of R8, only `TB_CLEAR` can decrease the cursor. -/
def Obligations.OnlyClearDecreasesTheCursor : Prop :=
  ∀ s t : State, s.cfg.wf → step s = .next t →
    (∀ w rest, s.inputs = .command w :: rest → decode w ≠ .ok .tbClear) →
    s.cursor.toNat ≤ t.cursor.toNat

/-! ### KSV -/

/-- R101: the outcome by the two draws, when deliverable and with room. That the bytes drawn are
`answerAt 0` and `answerAt 1`, whatever they are, and that a draw uses up an answer and counts, is the
model's choice (log 6). -/
def Obligations.KbdServiceOutcomes : Prop :=
  ∀ (s : State) (st code : Byte), s.cfg.wf → s.Deliverable →
    st = s.answerAt 0 → code = s.answerAt 1 →
    (st.getLsbD 0 = false →
      exec .kbdService s = .next { s with
        inService := false
        portAnswers := s.portAnswers.drop 1
        draws := s.draws + 1
        portLog := s.portLog ++
          [⟨.write, s.cfg.pic1Cmd, s.cfg.eoiCmd⟩, ⟨.read, s.cfg.kbdStatus, st⟩] }) ∧
    (st.getLsbD 0 = true → code.getLsbD 7 = true →
      exec .kbdService s = .next { s with
        inService := false
        portAnswers := s.portAnswers.drop 2
        draws := s.draws + 2
        portLog := s.portLog ++
          [⟨.write, s.cfg.pic1Cmd, s.cfg.eoiCmd⟩, ⟨.read, s.cfg.kbdStatus, st⟩,
            ⟨.read, s.cfg.kbdData, code⟩] }) ∧
    (st.getLsbD 0 = true → code.getLsbD 7 = false → code = s.cfg.enterCode →
      s.cursor.toNat < s.cfg.len →
      exec .kbdService s = .next { s with
        inService := false
        portAnswers := s.portAnswers.drop 2
        draws := s.draws + 2
        cursor := BitVec.ofNat 16
          (s.cursor.toNat + (2 * s.cfg.cols - s.cursor.toNat % (2 * s.cfg.cols)))
        portLog := s.portLog ++
          [⟨.write, s.cfg.pic1Cmd, s.cfg.eoiCmd⟩, ⟨.read, s.cfg.kbdStatus, st⟩,
            ⟨.read, s.cfg.kbdData, code⟩] }) ∧
    (st.getLsbD 0 = true → (h : code.toNat < 128) → code ≠ s.cfg.enterCode →
      s.cursor.toNat + 2 ≤ s.cfg.len → ∃ m : Memory,
      exec .kbdService s = .next { s with
        inService := false
        portAnswers := s.portAnswers.drop 2
        draws := s.draws + 2
        mem := m
        cursor := s.cursor + 2
        portLog := s.portLog ++
          [⟨.write, s.cfg.pic1Cmd, s.cfg.eoiCmd⟩, ⟨.read, s.cfg.kbdStatus, st⟩,
            ⟨.read, s.cfg.kbdData, code⟩] } ∧
      Memory.StoredAt s.mem m (s.cfg.tbAddr s.cursor.toNat)
        [s.cfg.scanTab[code.toNat], s.cfg.tbAttr])

/-- R98: not deliverable, `F_ORDER` before any port access; in a state of the invariant, deliverable is
the same as `SEQ = S_DONE`. -/
def Obligations.KbdServiceRefusedUnlessDeliverable : Prop :=
  (∀ s : State, ¬ (s.seq = 6 ∧ s.gateDone = true ∧ s.idtLoaded = true) →
    exec .kbdService s = .next { s with fault := s.fault ||| 0b0010 }) ∧
  (∀ s : State, s.cfg.wf → s.seq = 6 ∧ s.gateDone = true ∧ s.idtLoaded = true →
    ∃ t, exec .kbdService s = .next t ∧ t.fault.getLsbD 1 = s.fault.getLsbD 1) ∧
  ∀ s : State, s.Inv → (s.Deliverable ↔ s.seq = 6)

/-- R100, R106: Enter and a press at the end of the buffer fault after the port accesses; cursor and
buffer are unchanged, and the acknowledgment has been sent. Where the bytes drawn come from, and that
each draw uses up an answer and counts, is the model's choice (log 6). -/
def Obligations.KbdServiceAtTheEndLosesTheKey : Prop :=
  ∀ (s : State) (st code : Byte), s.cfg.wf → s.Deliverable → s.cursor.toNat = s.cfg.len →
    st = s.answerAt 0 → code = s.answerAt 1 → st.getLsbD 0 = true → code.getLsbD 7 = false →
    exec .kbdService s = .next { s with
      inService := false
      fault := s.fault ||| 0b0001
      portAnswers := s.portAnswers.drop 2
      draws := s.draws + 2
      portLog := s.portLog ++
        [⟨.write, s.cfg.pic1Cmd, s.cfg.eoiCmd⟩, ⟨.read, s.cfg.kbdStatus, st⟩,
          ⟨.read, s.cfg.kbdData, code⟩] }

/-- R133: every service that is admitted sends the acknowledgment first, and `IN_SERVICE` is 0 after
it, whatever the draws and whatever follows. -/
def Obligations.AcknowledgmentComesFirst : Prop :=
  ∀ s : State, s.cfg.wf → s.Deliverable →
    ∃ (t : State) (reads : List PortAccess), exec .kbdService s = .next t ∧
      t.portLog = s.portLog ++ ⟨.write, s.cfg.pic1Cmd, s.cfg.eoiCmd⟩ :: reads ∧
      (∀ a ∈ reads, a.dir = .read) ∧ t.inService = false

/-- R102: a code with its high bit set changes neither the buffer nor the cursor; and the Enter code
advances the row whatever `SCANTAB` holds at it: a table that differs only there gives the same
outcome. That the code drawn is `answerAt 1` is the model's choice (log 6). -/
def Obligations.ReleaseAndEnterIgnoreTheTable : Prop :=
  (∀ s t : State, exec .kbdService s = .next t → (s.answerAt 1).getLsbD 7 = true →
    t.mem = s.mem ∧ t.cursor = s.cursor) ∧
  (∀ (s t : State) (tab : Vector Byte 128),
    (∀ (j : Nat) (h : j < 128), j ≠ s.cfg.enterCode.toNat → tab[j] = s.cfg.scanTab[j]) →
    exec .kbdService s = .next t →
    exec .kbdService { s with cfg := { s.cfg with scanTab := tab } } =
      .next { t with cfg := { t.cfg with scanTab := tab } })

/-! ### Delivery -/

/-- R113, R112, R114: an offered key event runs the service when the agent is enabled and the delivery
leads to the service sequence (log 11). -/
def Obligations.EnabledKeyEventRunsTheService : Prop :=
  ∀ (s : State) (rest : List Input), s.inputs = .keyEvent :: rest →
    s.seq = 6 → s.inService = false → s.cpuIf = true → s.DeliveryLeadsToService →
    step s = exec .kbdService { s with inputs := rest, inService := true }

/-- R113: with any condition missing the agent has no step; the event is used up (log 5) and nothing
else changes. -/
def Obligations.KeyEventWithoutDeliveryDoesNothing : Prop :=
  ∀ (s : State) (rest : List Input), s.inputs = .keyEvent :: rest →
    (s.seq ≠ 6 ∨ s.inService = true ∨ s.cpuIf = false) →
    step s = .next { s with inputs := rest }

/-- R114: if the eight bytes are not those `GATE_SET KERNEL_CS, ISR_ENTRY` writes, or
`IDTR ≠ (0x07FF, IDT_BASE)`: `F_VECTOR`, no service, and `IN_SERVICE` stays 1 (the list of inputs is
the model's choice: log 4). -/
def Obligations.BadGateRaisesVectorFault : Prop :=
  ∀ (s : State) (rest : List Input), s.inputs = .keyEvent :: rest →
    s.seq = 6 → s.inService = false → s.cpuIf = true →
    (s.mem.readBytes s.cfg.kbdEntry 8
        ≠ (littleEndian 8
            (gateDescriptor s.cfg.gateAttr s.cfg.kernelCs s.cfg.isrEntry)).map some ∨
      s.idtr.limit ≠ 0x07FF ∨ s.idtr.base ≠ s.cfg.idtBase) →
    step s = .next { s with inputs := rest, inService := true, fault := s.fault ||| 0b1000 }

/-- R112, R114: in a state of the invariant whose stage is `S_DONE`, the keyboard line is routed to
`KBD_VECTOR` inside the limit, so the outcome of a delivery depends on the eight bytes of the gate
alone (log 11). -/
def Obligations.ConfiguredKeyIsRoutedToItsGate : Prop :=
  ∀ s : State, s.Inv → s.seq = sDone →
    s.routedVector = s.cfg.kbdVector ∧
    8 * s.cfg.kbdVector + 7 ≤ s.idtr.limit.toNat ∧
    s.idtr.base.toNat + 8 * s.routedVector = s.cfg.kbdEntry ∧
    (s.DeliveryLeadsToService ↔
      s.mem.readBytes s.cfg.kbdEntry 8
        = (gateBytes s.cfg s.cfg.kernelCs s.cfg.isrEntry).map some)

/-- R115: a delivery that runs the service ends with `IN_SERVICE = 0`, and until then no second one
starts: the service is the whole step (the model's choice of form: log 4). -/
def Obligations.DeliveredServiceIsAcknowledged : Prop :=
  ∀ (s : State) (rest : List Input), s.Inv → s.inputs = .keyEvent :: rest →
    s.DeliveryEnabled → s.DeliveryLeadsToService →
    ∃ t, step s = .next t ∧ t.inService = false ∧ t.seq = sDone ∧ t.inputs = rest

/-! ### Faults -/

/-- R18, R109: a set bit is never cleared by a step. -/
def Obligations.FaultBitsAreSticky : Prop :=
  ∀ s t : State, step s = .next t → s.fault &&& t.fault = s.fault

/-- R11: a command completes with `FAULT` as it was, or it sets one bit and changes nothing else; the
one exception is the bounds check of `KBD_SERVICE`, which leaves cursor and memory unchanged. -/
def Obligations.CommandCompletesOrOnlyRaises : Prop :=
  ∀ (s t : State) (i : Instr), exec i s = .next t →
    t.fault = s.fault ∨ (∃ c, t = s.raise c) ∨
    (i = .kbdService ∧ s.Deliverable ∧ t.fault = s.fault ||| 0b0001 ∧
      t.cursor = s.cursor ∧ t.mem = s.mem)

/-- R107: `F_ORDER` in full: raised with nothing else changed under exactly these conditions. -/
def Obligations.OrderFaultExactlyWhenNotAdmitted : Prop :=
  ∀ (s : State) (i : Instr),
    (OrderFaults i s → exec i s = .next { s with fault := s.fault ||| 0b0010 }) ∧
    (¬ OrderFaults i s → ∀ t, exec i s = .next t → t.fault.getLsbD 1 = s.fault.getLsbD 1)

/-! ### Invariants and whole-machine rules -/

/-- R30, R126: the values the spec gives for reset; no byte of memory has a value (the model's form of
"unspecified": log 9). Nothing is said of the registers whose reset value is the model's (log 7, 8). -/
def Obligations.ResetGivesTheStatedValues : Prop :=
  ∀ c : Config,
    (State.resetWith c).seq = 0 ∧ (State.resetWith c).cursor = 0 ∧
    (State.resetWith c).fault = 0 ∧ (State.resetWith c).gateDone = false ∧
    (State.resetWith c).idtLoaded = false ∧ (State.resetWith c).portLog = [] ∧
    (State.resetWith c).inService = false ∧ (State.resetWith c).cfg = c ∧
    (∀ a, (State.resetWith c).mem.read a = none)

/-- The start of every run, in every configuration of R8, meets the invariant; so does
`State.reset`. -/
def Obligations.InvariantHoldsAtReset : Prop :=
  (∀ (c : Config) (ins : List Input) (answers : List Byte), c.wf →
    (State.startOfRun c ins answers).Inv) ∧ State.reset.Inv

/-- Every step keeps the invariant: configuration, canonical memory, cursor (R89), stages and flags
(R98), shadows (R85), `IDTR` (R21), what is written (R75, R92), the gate (R55, R56), `IN_SERVICE`. -/
def Obligations.StepKeepsTheInvariant : Prop :=
  ∀ s t : State, s.Inv → step s = .next t → t.Inv

/-- R137: every step completes, in every configuration of R8: the model's one fault and its refusal
are never reached. -/
def Obligations.EveryStepCompletes : Prop :=
  ∀ s : State, s.cfg.wf → ∃ t, step s = .next t

/-- R130: every run, whatever the agents do and whatever the ports answer, has an end state, and it
meets the invariant (the form of a run's inputs is the model's choice: log 4, log 6). -/
def Obligations.EveryRunEndsInTheInvariant : Prop :=
  ∀ (c : Config) (ins : List Input) (answers : List Byte) (k : Nat), c.wf →
    ∃ t, Sys2Proof.core.run k (State.startOfRun c ins answers) = .next t ∧ t.Inv

/-- R15, R16: a step leaves `SEQ` or moves it one stage on; value 7 is never written. -/
def Obligations.SeqOnlyMovesForward : Prop :=
  ∀ s t : State, step s = .next t →
    t.seq = s.seq ∨ (t.seq.toNat = s.seq.toNat + 1 ∧ s.seq.toNat < 6)

/-- R19, R29: no step clears `GATE_DONE` or `IDT_LOADED`, and none changes the configuration. -/
def Obligations.FlagsAndConfigurationAreKept : Prop :=
  ∀ s t : State, step s = .next t →
    (s.gateDone = true → t.gateDone = true) ∧ (s.idtLoaded = true → t.idtLoaded = true) ∧
    t.cfg = s.cfg

/-- R92, R75: no step writes a byte outside the text buffer and the keyboard entry. -/
def Obligations.StepWritesOnlyBufferAndGate : Prop :=
  ∀ s t : State, s.cfg.wf → step s = .next t →
    ∀ a, ¬ InTb s.cfg a → ¬ InKbdGate s.cfg a → t.mem.read a = s.mem.read a

/-- R25, R70: once `GATE_DONE`, no step changes a byte of the entry ("exactly once"). -/
def Obligations.GateIsWrittenOnce : Prop :=
  ∀ s t : State, s.cfg.wf → s.gateDone = true → step s = .next t →
    ∀ a, InKbdGate s.cfg a → t.mem.read a = s.mem.read a

/-- R32: the block never reads memory: with any other memory contents a command does the same to
everything else, and stores the same bytes to the same addresses. -/
def Obligations.CommandsNeverReadMemory : Prop :=
  ∀ (s t : State) (i : Instr), exec i s = .next t →
    ∀ m : Memory, ∃ m' : Memory, exec i { s with mem := m } = .next { t with mem := m' } ∧
      Memory.StoredAlike s.mem t.mem m m'

/-- R28, R122: a step only appends to `PORTLOG`, and only on the six ports, each in its direction:
reads only from the keyboard's two, writes only to the controllers' four, and there only the bytes the
table lists for the port. In a configuration of R8 no write goes to a keyboard port. -/
def Obligations.PortLogOnlyGrows : Prop :=
  ∀ s t : State, step s = .next t →
    ∃ new : List PortAccess, t.portLog = s.portLog ++ new ∧
      ∀ a ∈ new, a.port ∈ s.cfg.ports ∧
        (a.dir = .read → a.port = s.cfg.kbdStatus ∨ a.port = s.cfg.kbdData) ∧
        (a.dir = .write → (a.port, a.byte) ∈ deviceWrites s.cfg) ∧
        (s.cfg.wf → a.dir = .write → a.port ≠ s.cfg.kbdStatus ∧ a.port ≠ s.cfg.kbdData)

/-- R129: the state after `BOOT` issued from reset with a banner that fits. That the commands are
scheduled one by one (log 4), and that a byte nothing has written reads as no value (log 9), is the
model's choice. -/
def Obligations.BootReachesTheConfiguredState : Prop :=
  ∀ c : Config, c.wf → 2 * c.banner.length ≤ c.len →
    ∃ t : State,
      Sys2Proof.core.run (boot c).length ((State.resetWith c).schedule (boot c)) = .next t ∧
      t.cursor.toNat = 2 * c.banner.length ∧
      (∀ o, o < 2 * c.banner.length →
        t.displayByte o = (interleave c.tbAttr c.banner)[o]?) ∧
      (∀ o, 2 * c.banner.length ≤ o → o < c.len →
        t.displayByte o = some (if o % 2 = 0 then c.space else c.tbAttr)) ∧
      t.mem.readBytes c.kbdEntry 8 = (gateBytes c c.kernelCs c.isrEntry).map some ∧
      (∀ a, ¬ InTb c a → ¬ InKbdGate c a → t.mem.read a = none) ∧
      t.idtr = ⟨0x07FF, c.idtBase⟩ ∧ t.gateDone = true ∧ t.idtLoaded = true ∧ t.seq = sDone ∧
      t.imrPri = 0xFD ∧ t.imrSec = 0xFF ∧ t.voffPriL = c.voffPri ∧ t.voffSecL = c.voffSec ∧
      t.portLog =
        [ ⟨.write, c.pic1Cmd, c.icw1⟩, ⟨.write, c.pic2Cmd, c.icw1⟩,
          ⟨.write, c.pic1Data, c.voffPri⟩, ⟨.write, c.pic2Data, c.voffSec⟩,
          ⟨.write, c.pic1Data, c.icw3Pri⟩, ⟨.write, c.pic2Data, c.icw3Sec⟩,
          ⟨.write, c.pic1Data, c.icw4⟩, ⟨.write, c.pic2Data, c.icw4⟩,
          ⟨.write, c.pic1Data, 0xFF⟩, ⟨.write, c.pic2Data, 0xFF⟩,
          ⟨.write, c.pic1Data, 0xFD⟩ ] ∧
      t.fault = 0 ∧ t.inService = false ∧ t.cfg = c ∧ t.DeliveryLeadsToService
end

