-- ==== Sys2Proof/Laws/Config.lean ====
section
/-! SUPPORT. What the constraints of R8 give: the two regions fit, do not meet, and the row
boundaries of R88 and R93. -/

namespace Sys2Proof

namespace Config

variable {c : Config}

theorem len_eq_rows_mul_rowBytes (c : Config) : c.len = c.rows * c.rowBytes := by
  simp only [len, rowBytes]
  rw [Nat.mul_assoc, Nat.mul_comm c.cols 2]

theorem len_eq_two_mul_cells (c : Config) : c.len = 2 * c.cells := by
  simp only [len, cells]
  omega

theorem rowBytes_pos (h : c.wf) : 0 < c.rowBytes := by
  have := h.2.2.2.1.1
  simp only [rowBytes]
  omega

theorem rowBytes_even (c : Config) : c.rowBytes % 2 = 0 := by
  simp [rowBytes]

theorem len_even (c : Config) : c.len % 2 = 0 := by
  simp [len]

theorem len_le (h : c.wf) : c.len ≤ 65534 := h.2.2.2.1.2.2

theorem kbdVector_lt (h : c.wf) : c.kbdVector < 256 := by
  have := h.2.1.2.2.2.1
  simp only [kbdVector, kbdLine]
  omega

/-- The keyboard entry lies inside the table (R75). -/
theorem kbdEntry_inside_ivt (h : c.wf) :
    c.idtBase.toNat ≤ c.kbdEntry ∧ c.kbdEntry + 8 ≤ c.idtBase.toNat + ivtBytes := by
  have := kbdVector_lt h
  simp only [kbdEntry, ivtEntry, gateBytes, ivtBytes, ivtEntries]
  omega

/-- The gate's 8 bytes lie inside the address space (R63: no wrap-around). -/
theorem kbdEntry_fits (h : c.wf) : c.kbdEntry + gateBytes ≤ 2 ^ 32 := by
  have h₁ := (kbdEntry_inside_ivt h).2
  have h₂ := h.2.2.2.2.1.1
  simp only [gateBytes]
  omega

theorem tbAddr_fits (h : c.wf) {o : Nat} (ho : o ≤ c.len) : c.tbAddr o ≤ 2 ^ 32 := by
  have := h.2.2.2.2.1.2
  simp only [tbAddr]
  omega

/-- The text buffer and the keyboard entry do not meet (R8). -/
theorem kbdEntry_disjoint_tb (h : c.wf) :
    c.kbdEntry + 8 ≤ c.tbAddr 0 ∨ c.tbAddr c.len ≤ c.kbdEntry := by
  have h₁ := kbdEntry_inside_ivt h
  have h₂ := h.2.2.2.2.2
  simp only [tbAddr]
  omega

end Config

namespace Machine

variable {c : Config}

/-- The distance to the next boundary is between 1 and a full row (R93: a full row when aligned). -/
theorem nextRowBoundary_bounds (h : c.wf) (n : Nat) :
    n < nextRowBoundary c n ∧ nextRowBoundary c n ≤ n + c.rowBytes := by
  have := Nat.mod_lt n (Config.rowBytes_pos h)
  simp only [nextRowBoundary]
  omega

/-- The next boundary is the start of the row after the cursor's. -/
theorem nextRowBoundary_eq (h : c.wf) (n : Nat) :
    nextRowBoundary c n = (n / c.rowBytes + 1) * c.rowBytes := by
  have hm := Nat.mod_lt n (Config.rowBytes_pos h)
  have hd := Nat.div_add_mod n c.rowBytes
  simp only [nextRowBoundary]
  rw [Nat.add_mul, Nat.one_mul, Nat.mul_comm (n / c.rowBytes)]
  omega

/-- From any cursor before the end, the next boundary is at most the end (R93). -/
theorem nextRowBoundary_le_len (h : c.wf) {n : Nat} (hn : n < c.len) :
    nextRowBoundary c n ≤ c.len := by
  rw [nextRowBoundary_eq h, Config.len_eq_rows_mul_rowBytes]
  refine Nat.mul_le_mul_right _ ?_
  rw [Config.len_eq_rows_mul_rowBytes] at hn
  exact Nat.div_lt_of_lt_mul (by rwa [Nat.mul_comm] at hn)

theorem nextRowBoundary_even (h : c.wf) (n : Nat) : nextRowBoundary c n % 2 = 0 := by
  have he := Config.rowBytes_even c
  rw [nextRowBoundary_eq h, Nat.mul_mod, he]
  simp

/-- At the end itself the next boundary is beyond it (R93). -/
theorem len_lt_nextRowBoundary_len (h : c.wf) : c.len < nextRowBoundary c c.len :=
  (nextRowBoundary_bounds h c.len).1

@[simp] theorem length_littleEndian {w : Nat} (n : Nat) (v : BitVec w) :
    (littleEndian n v).length = n := by simp [littleEndian]

@[simp] theorem length_gateBytes (c : Config) (sel : Half) (haddr : Addr) :
    (gateBytes c sel haddr).length = 8 := by simp [gateBytes]

@[simp] theorem length_cellBytes (c : Config) (ch : Byte) : (cellBytes c ch).length = 2 := rfl

@[simp] theorem length_clearedBuffer (c : Config) : (clearedBuffer c).length = c.len := by
  simp [clearedBuffer, Config.len_eq_two_mul_cells, Nat.mul_comm]

/-- The byte at each offset of a cleared buffer (R90): a space at the even ones, the attribute at the
odd ones. -/
theorem getElem?_clearedBuffer (c : Config) {o : Nat} (h : o < c.len) :
    (clearedBuffer c)[o]? = some (if o % 2 = 0 then c.space else c.tbAttr) := by
  have key : ∀ (n o : Nat), o < 2 * n →
      ((List.replicate n (cellBytes c c.space)).flatten)[o]?
        = some (if o % 2 = 0 then c.space else c.tbAttr) := by
    intro n
    induction n with
    | zero => intro o ho; omega
    | succ n ih =>
      intro o ho
      rw [List.replicate_succ, List.flatten_cons]
      match o, ho with
      | 0, _ => rfl
      | 1, _ => rfl
      | o + 2, ho =>
        have : (cellBytes c c.space ++ (List.replicate n (cellBytes c c.space)).flatten)[o + 2]?
            = ((List.replicate n (cellBytes c c.space)).flatten)[o]? := by
          simp [cellBytes]
        rw [this, ih o (by omega), Nat.add_mod_right]
  exact key c.cells o (by rw [Config.len_eq_two_mul_cells] at h; exact h)

/-- A 16-bit cursor holds every offset up to the end (R17). -/
theorem toNat_cursor_of_le_len (h : c.wf) {n : Nat} (hn : n ≤ c.len) :
    (BitVec.ofNat 16 n).toNat = n := by
  have := Config.len_le h
  rw [BitVec.toNat_ofNat, Nat.mod_eq_of_lt]
  omega

/-! ### Fields of a gate and of the table descriptor -/

/-- Every bit of a gate (R55, R57): the low half, the selector, the zero byte, the type byte, the high
half. -/
theorem getLsbD_gateDescriptor (attr : Byte) (sel : Half) (haddr : Addr) (j : Nat) :
    (gateDescriptor attr sel haddr).getLsbD j =
      if j < 16 then haddr.getLsbD j
      else if j < 32 then sel.getLsbD (j - 16)
      else if j < 40 then false
      else if j < 48 then attr.getLsbD (j - 40)
      else haddr.getLsbD (j - 32) := by
  simp only [gateDescriptor, offsetHi, offsetLo, BitVec.getLsbD_append, BitVec.getLsbD_extractLsb']
  split
  · simp [*]
  split
  · simp [*, show j < 32 by omega]
  split
  · simp [show ¬ j < 32 by omega, show j < 40 by omega]
  split
  · simp [show ¬ j < 32 by omega, show ¬ j < 40 by omega, show j < 48 by omega,
      show j - 16 - 16 - 8 = j - 40 by omega]
  · simp [show ¬ j < 32 by omega, show ¬ j < 40 by omega, show ¬ j < 48 by omega,
      show 16 + (j - 16 - 16 - 8 - 8) = j - 32 by omega]
    intro h
    have := BitVec.lt_of_getLsbD h
    omega

/-- The 8 bytes of a gate, as the table of R55 lists them. -/
theorem gateBytes_eq (c : Config) (sel : Half) (haddr : Addr) :
    gateBytes c sel haddr =
      [haddr.extractLsb' 0 8, haddr.extractLsb' 8 8, sel.extractLsb' 0 8, sel.extractLsb' 8 8,
        0x00, c.gateAttr, haddr.extractLsb' 16 8, haddr.extractLsb' 24 8] := by
  have e : gateBytes c sel haddr = [0, 8, 16, 24, 32, 40, 48, 56].map fun k =>
      (gateDescriptor c.gateAttr sel haddr).extractLsb' k 8 := rfl
  rw [e]
  simp only [List.map_cons, List.map_nil, List.cons.injEq, and_true]
  refine ⟨?_, ?_, ?_, ?_, ?_, ?_, ?_, ?_⟩ <;>
  · refine BitVec.eq_of_getLsbD_eq fun j hj => ?_
    simp only [BitVec.getLsbD_extractLsb', getLsbD_gateDescriptor]
    repeat' split
    all_goals try omega
    all_goals try (simp [hj]; done)
    all_goals (simp [hj]; congr 1; omega)

/-- The handler address rejoins exactly (R57). -/
theorem gateTarget_gateDescriptor (attr : Byte) (sel : Half) (haddr : Addr) :
    gateTarget (gateDescriptor attr sel haddr) = haddr := by
  refine BitVec.eq_of_getLsbD_eq fun j hj => ?_
  simp only [gateTarget, BitVec.getLsbD_append, BitVec.getLsbD_extractLsb', getLsbD_gateDescriptor]
  by_cases h : j < 16
  · simp [h]
  · simp [h, show ¬ 48 + (j - 16) < 16 by omega, show ¬ 48 + (j - 16) < 32 by omega,
      show ¬ 48 + (j - 16) < 40 by omega, show 48 + (j - 16) - 32 = j by omega,
      show j - 16 < 16 by omega]

/-- The selector is copied verbatim (R55). -/
theorem gateSelector_gateDescriptor (attr : Byte) (sel : Half) (haddr : Addr) :
    gateSelector (gateDescriptor attr sel haddr) = sel := by
  refine BitVec.eq_of_getLsbD_eq fun j hj => ?_
  simp only [gateSelector, BitVec.getLsbD_extractLsb', getLsbD_gateDescriptor]
  simp [hj, show ¬ 16 + j < 16 by omega, show 16 + j < 32 by omega]

/-- The table load gets back exactly the pair that was packed (R58). -/
theorem unpack_packTableDescriptor (limit : Half) (base : Addr) :
    unpackTableDescriptor (packTableDescriptor limit base).1 (packTableDescriptor limit base).2
      = ⟨limit, base⟩ := by
  simp only [unpackTableDescriptor, packTableDescriptor, Idtr.mk.injEq]
  constructor
  · ext i hi
    simp only [BitVec.getElem_extractLsb', BitVec.getLsbD_extractLsb', BitVec.getLsbD_append,
      BitVec.getLsbD_setWidth, show 0 + i < 48 by omega, show 0 + (0 + i) < 32 by omega,
      show 0 + (0 + i) < 16 by omega]
    simp [BitVec.getLsbD_eq_getElem hi]
  · ext i hi
    simp only [BitVec.getElem_extractLsb', BitVec.getLsbD_extractLsb', BitVec.getLsbD_append,
      BitVec.getLsbD_setWidth]
    by_cases h : i < 16
    · simp [show 16 + i < 48 by omega, show 16 + i < 32 by omega,
        show ¬ 16 + i < 16 by omega, show 16 + i - 16 = i by omega, h, BitVec.getLsbD_eq_getElem hi]
    · simp [show 16 + i < 48 by omega, show ¬ 16 + i < 32 by omega,
        show 16 + i - 32 < 16 by omega, show 16 + (16 + i - 32) = i by omega,
        show 16 + i - 32 < 32 by omega, BitVec.getLsbD_eq_getElem hi]

end Machine

end Sys2Proof
end

