-- ==== Sys2Proof/Laws/Decode.lean ====
section
/-! SUPPORT. The fields of an encoded word (R49 to R52) and the rows of the opcode map (R54). -/

namespace Sys2Proof

/-- The opcode of an encoded command is its `OPC` (R49). -/
@[simp] theorem opcodeField_encode (i : Instr) : opcodeField (encode i) = opcode i := by
  simp only [opcodeField, encode]
  ext j hj
  simp only [BitVec.getElem_extractLsb', BitVec.getLsbD_append, show ¬ 56 + j < 56 by omega,
    show 56 + j - 56 = j by omega]
  simp [BitVec.getLsbD_eq_getElem hj]

/-- The operand field of an encoded command is its operand (R49). -/
@[simp] theorem operandField_encode (i : Instr) : operandField (encode i) = operand i := by
  simp only [operandField, encode]
  ext j hj
  simp only [BitVec.getElem_extractLsb', BitVec.getLsbD_append, show 0 + j < 56 by omega]
  simp [BitVec.getLsbD_eq_getElem hj]

/-- The two fields spell the whole word (R49). -/
theorem word_eq_fields (w : CommandWord) : w = opcodeField w ++ operandField w := by
  refine BitVec.eq_of_getLsbD_eq fun j hj => ?_
  refine Eq.trans ?_ (BitVec.getLsbD_append (x := opcodeField w) (y := operandField w) (i := j)).symm
  simp only [opcodeField, operandField, BitVec.getLsbD_extractLsb']
  by_cases h : j < 56
  · simp [h]
  · simp [h, show 56 + (j - 56) = j by omega, show j - 56 < 8 by omega]

/-- The bytes of a word spell it again (R34). -/
theorem commandWordOfBytes_bytesOfCommandWord (w : CommandWord) :
    commandWordOfBytes (bytesOfCommandWord w) = some w := by
  have : bytesOfCommandWord w = [w.extractLsb' 0 8, w.extractLsb' 8 8, w.extractLsb' 16 8,
      w.extractLsb' 24 8, w.extractLsb' 32 8, w.extractLsb' 40 8, w.extractLsb' 48 8,
      w.extractLsb' 56 8] := rfl
  rw [this, commandWordOfBytes]
  congr 1
  refine BitVec.eq_of_getLsbD_eq fun j hj => ?_
  simp only [BitVec.getLsbD_append, BitVec.getLsbD_extractLsb', Nat.zero_add]
  repeat' split
  all_goals rw [decide_eq_true (by omega), Bool.true_and]
  all_goals (congr 1; omega)

/-- A row of the opcode map that a word matches fixes the word's bits under the mask (R54). -/
theorem matches_of_mem_table {w : CommandWord}
    (h : ∃ r ∈ opcodeTable, r.Matches w) : opcodeField w ∈ opcodeTable.map fun r =>
      opcodeField r.pattern := by
  obtain ⟨r, hr, hm⟩ := h
  refine List.mem_map.2 ⟨r, hr, ?_⟩
  have hmask : opcodeField r.mask = 0xFF#8 := by
    have all : ∀ r ∈ opcodeTable, opcodeField r.mask = 0xFF#8 := by decide
    exact all r hr
  rw [← hm]
  ext j hj
  have hj' : (opcodeField r.mask).getLsbD j = true := by
    rw [hmask]
    interval_cases j <;> rfl
  simp only [opcodeField, BitVec.getLsbD_extractLsb', Bool.and_eq_true] at hj'
  simp [opcodeField, BitVec.getLsbD_and, hj'.2]

end Sys2Proof
end

