-- ==== Sys2Proof/Laws/Memory.lean ====
section
/-! SUPPORT. The memory: what a byte reads as after a store, that stores keep the canonical form, and
that canonical memories with the same bytes are equal. -/

namespace Sys2Proof.Machine

@[simp] theorem Memory.read_nil (x : Nat) : Memory.read [] x = none := rfl

theorem Memory.read_cons (a : Nat) (b : Byte) (m : Memory) (x : Nat) :
    Memory.read ((a, b) :: m) x = if a = x then some b else Memory.read m x := rfl

@[simp] theorem cellsAt_nil (a : Nat) : cellsAt a [] = [] := rfl

@[simp] theorem cellsAt_cons (a : Nat) (b : Byte) (bs : List Byte) :
    cellsAt a (b :: bs) = (a, b) :: cellsAt (a + 1) bs := rfl

theorem Memory.read_append (m n : Memory) (x : Nat) :
    Memory.read (m ++ n) x = (Memory.read m x).or (Memory.read n x) := by
  induction m with
  | nil => simp
  | cons p m ih =>
    obtain ⟨a, b⟩ := p
    simp only [List.cons_append, read_cons]
    split <;> simp [ih]

/-- Filtering by the address keeps the bytes whose address passes. -/
theorem Memory.read_filter (m : Memory) (q : Nat → Bool) (x : Nat) :
    Memory.read (m.filter fun p => q p.1) x = if q x then Memory.read m x else none := by
  induction m with
  | nil => simp
  | cons p m ih =>
    obtain ⟨a, b⟩ := p
    by_cases hq : q a
    · simp only [List.filter_cons, hq, if_true, read_cons]
      split
      · next h => simp [← h, hq]
      · exact ih
    · simp only [List.filter_cons, hq, Bool.false_eq_true, if_false, read_cons, ih]
      by_cases h : a = x
      · simp [← h, hq]
      · simp [h]

theorem Memory.read_cellsAt (a : Nat) (bs : List Byte) (x : Nat) :
    Memory.read (cellsAt a bs) x = if a ≤ x then bs[x - a]? else none := by
  induction bs generalizing a with
  | nil => simp
  | cons b bs ih =>
    rw [cellsAt_cons, read_cons, ih]
    by_cases h : a = x
    · simp [h]
    · by_cases h' : a ≤ x
      · have : x - a = (x - (a + 1)) + 1 := by omega
        simp [h, h', show a + 1 ≤ x by omega, this]
      · simp [h, h', show ¬ a + 1 ≤ x by omega]

/-- A byte read after a store: inside the run it is the stored byte, elsewhere what it was. -/
theorem Memory.read_writeBytes (m : Memory) (a : Nat) (bs : List Byte) (x : Nat) :
    (m.writeBytes a bs).read x =
      if a ≤ x ∧ x < a + bs.length then bs[x - a]? else m.read x := by
  have lo := read_filter m (fun y => decide (y < a)) x
  have hi := read_filter m (fun y => decide (a + bs.length ≤ y)) x
  simp only [writeBytes, read_append, read_cellsAt, lo, hi, decide_eq_true_eq]
  by_cases h₁ : x < a
  · simp only [h₁, if_true, show ¬ a ≤ x by omega, false_and, if_false]
    simp [show ¬ a + bs.length ≤ x by omega]
  · by_cases h₂ : x < a + bs.length
    · simp [h₁, h₂, show a ≤ x by omega, show ¬ a + bs.length ≤ x by omega]
    · have : bs[x - a]? = none := List.getElem?_eq_none (by omega)
      simp [h₁, h₂, this, show a ≤ x by omega, show a + bs.length ≤ x by omega]

theorem Memory.read_writeBytes_outside (m : Memory) (a : Nat) (bs : List Byte) (x : Nat)
    (h : x < a ∨ a + bs.length ≤ x) : (m.writeBytes a bs).read x = m.read x := by
  rw [read_writeBytes, if_neg (by omega)]

theorem Memory.read_writeBytes_at (m : Memory) (a : Nat) (bs : List Byte) (i : Nat)
    (h : i < bs.length) : (m.writeBytes a bs).read (a + i) = some bs[i] := by
  rw [read_writeBytes, if_pos (by omega)]
  simp [h]

@[simp] theorem Memory.length_readBytes (m : Memory) (a n : Nat) :
    (m.readBytes a n).length = n := by simp [readBytes]

theorem Memory.readBytes_writeBytes (m : Memory) (a : Nat) (bs : List Byte) :
    (m.writeBytes a bs).readBytes a bs.length = bs.map some := by
  apply List.ext_getElem
  · simp
  · intro i h₁ h₂
    have hi : i < bs.length := by simpa using h₂
    simp [readBytes, read_writeBytes_at, hi]

theorem Memory.readBytes_congr {m n : Memory} {a k : Nat}
    (h : ∀ i < k, m.read (a + i) = n.read (a + i)) : m.readBytes a k = n.readBytes a k := by
  refine List.map_congr_left fun i hi => h i (by simpa using hi)

theorem Memory.readBytes_writeBytes_outside (m : Memory) (a : Nat) (bs : List Byte) (b k : Nat)
    (h : b + k ≤ a ∨ a + bs.length ≤ b) :
    (m.writeBytes a bs).readBytes b k = m.readBytes b k :=
  readBytes_congr fun i _ => read_writeBytes_outside _ _ _ _ (by omega)

/-- A store writes its run and nothing else, in the words of the statements. -/
theorem Memory.storedAt_writeBytes (m : Memory) (a : Nat) (bs : List Byte) :
    Memory.StoredAt m (m.writeBytes a bs) a bs :=
  ⟨readBytes_writeBytes m a bs, read_writeBytes_outside m a bs⟩

/-- Memories that nobody stored to became what they are alike. -/
theorem Memory.storedAlike_refl (m n : Memory) : Memory.StoredAlike m m n n :=
  fun _ => .inl ⟨rfl, rfl⟩

/-- The same run of bytes stored at the same address is stored alike. -/
theorem Memory.storedAlike_writeBytes (m n : Memory) (a : Nat) (bs : List Byte) :
    Memory.StoredAlike m (m.writeBytes a bs) n (n.writeBytes a bs) := by
  intro x
  simp only [Memory.read_writeBytes]
  split
  · exact .inr rfl
  · exact .inl ⟨rfl, rfl⟩

theorem mem_cellsAt_bounds {a : Nat} {bs : List Byte} {p : Host.Cell} (h : p ∈ cellsAt a bs) :
    a ≤ p.1 ∧ p.1 < a + bs.length := by
  induction bs generalizing a with
  | nil => simp at h
  | cons b bs ih =>
    rcases List.mem_cons.1 h with rfl | h
    · simp
    · have := ih h
      simp only [List.length_cons]
      omega

/-- Where a listed byte of a memory after a store comes from. -/
theorem Memory.mem_writeBytes {m : Memory} {a : Nat} {bs : List Byte} {p : Host.Cell}
    (h : p ∈ m.writeBytes a bs) : p ∈ m ∨ (a ≤ p.1 ∧ p.1 < a + bs.length) := by
  rw [writeBytes, List.mem_append, List.mem_append] at h
  rcases h with (h | h) | h
  · exact .inl (List.mem_filter.1 h).1
  · exact .inr (mem_cellsAt_bounds h)
  · exact .inl (List.mem_filter.1 h).1

theorem cellsAt_wf (a : Nat) (bs : List Byte) : Memory.wf (cellsAt a bs) := by
  induction bs generalizing a with
  | nil => exact List.Pairwise.nil
  | cons b bs ih =>
    refine List.Pairwise.cons (fun p hp => ?_) (ih (a + 1))
    have := mem_cellsAt_bounds hp
    show a < p.1
    omega

/-- Every store keeps the canonical form. -/
theorem Memory.writeBytes_wf {m : Memory} (h : m.wf) (a : Nat) (bs : List Byte) :
    (m.writeBytes a bs).wf := by
  refine List.pairwise_append.2 ⟨List.pairwise_append.2 ⟨h.filter _, cellsAt_wf a bs, ?_⟩,
    h.filter _, ?_⟩
  · intro p hp q hq
    have h₁ := (List.mem_filter.1 hp).2
    have h₂ := mem_cellsAt_bounds hq
    simp only [decide_eq_true_eq] at h₁
    show p.1 < q.1
    omega
  · intro p hp q hq
    have h₂ := (List.mem_filter.1 hq).2
    simp only [decide_eq_true_eq] at h₂
    show p.1 < q.1
    rcases List.mem_append.1 hp with hp | hp
    · have h₁ := (List.mem_filter.1 hp).2
      simp only [decide_eq_true_eq] at h₁
      omega
    · have h₁ := mem_cellsAt_bounds hp
      omega

/-- Two adjacent stores are one store (R36: "no agent can observe the difference"). -/
theorem Memory.writeBytes_append (m : Memory) (a : Nat) (xs ys : List Byte) :
    (m.writeBytes a xs).writeBytes (a + xs.length) ys = m.writeBytes a (xs ++ ys) := by
  have cells : ∀ (b : Nat) (us vs : List Byte),
      cellsAt b (us ++ vs) = cellsAt b us ++ cellsAt (b + us.length) vs := by
    intro b us vs
    induction us generalizing b with
    | nil => simp
    | cons u us ih => simp [ih, Nat.add_comm 1, Nat.add_assoc]
  have keep : (cellsAt a xs).filter (fun p => decide (p.1 < a + xs.length)) = cellsAt a xs :=
    List.filter_eq_self.2 fun p hp => by have := mem_cellsAt_bounds hp; simp; omega
  have drop : (cellsAt a xs).filter
      (fun p => decide (a + (xs.length + ys.length) ≤ p.1)) = [] :=
    List.filter_eq_nil_iff.2 fun p hp => by have := mem_cellsAt_bounds hp; simp; omega
  simp only [writeBytes, List.filter_append, List.filter_filter, keep, drop, cells,
    List.length_append, List.append_assoc, Nat.add_assoc]
  have e₁ : m.filter (fun p => decide (p.1 < a + xs.length) && decide (p.1 < a))
      = m.filter (fun p => decide (p.1 < a)) :=
    List.filter_congr fun p _ => by simp; omega
  have e₂ : m.filter (fun p => decide (p.1 < a + xs.length) && decide (a + xs.length ≤ p.1))
      = [] := List.filter_eq_nil_iff.2 fun p _ => by simp
  have e₃ : m.filter (fun p => decide (a + (xs.length + ys.length) ≤ p.1) && decide (p.1 < a))
      = [] := List.filter_eq_nil_iff.2 fun p _ => by simp; omega
  have e₄ : m.filter (fun p => decide (a + (xs.length + ys.length) ≤ p.1)
        && decide (a + xs.length ≤ p.1))
      = m.filter (fun p => decide (a + (xs.length + ys.length) ≤ p.1)) :=
    List.filter_congr fun p _ => by simp; omega
  rw [e₁, e₂, e₃, e₄]
  simp

theorem Memory.read_eq_none_of_lt {m : Memory} {x : Nat} (h : ∀ p ∈ m, x < p.1) :
    m.read x = none := by
  induction m with
  | nil => rfl
  | cons p m ih =>
    obtain ⟨a, b⟩ := p
    have ha := h (a, b) (by simp)
    rw [read_cons, if_neg (by simp at ha; omega)]
    exact ih fun q hq => h q (by simp [hq])

theorem Memory.wf_tail {p : Host.Cell} {m : Memory} (h : Memory.wf (p :: m)) : m.wf :=
  (List.pairwise_cons.1 h).2

/-- In a canonical memory a listed byte is the byte its address reads as. -/
theorem Memory.read_of_mem {m : Memory} (h : m.wf) {p : Host.Cell} (hp : p ∈ m) :
    m.read p.1 = some p.2 := by
  induction m with
  | nil => simp at hp
  | cons q m ih =>
    obtain ⟨a, b⟩ := q
    rcases List.mem_cons.1 hp with rfl | hp
    · simp [read_cons]
    · have : a < p.1 := (List.pairwise_cons.1 h).1 p hp
      rw [read_cons, if_neg (by omega)]
      exact ih (wf_tail h) hp

/-- Equal canonical memories are equal data. -/
theorem Memory.ext_of_wf {m n : Memory} (hm : m.wf) (hn : n.wf) (h : ∀ x, m.read x = n.read x) :
    m = n := by
  induction m generalizing n with
  | nil =>
    cases n with
    | nil => rfl
    | cons q n => have := h q.1; rw [read_of_mem hn (by simp)] at this; simp at this
  | cons p m ih =>
    cases n with
    | nil => have := h p.1; rw [read_of_mem hm (by simp)] at this; simp at this
    | cons q n =>
      obtain ⟨a, b⟩ := p
      obtain ⟨c, d⟩ := q
      have pm : ∀ r ∈ m, a < r.1 := (List.pairwise_cons.1 hm).1
      have pn : ∀ r ∈ n, c < r.1 := (List.pairwise_cons.1 hn).1
      have hac : a = c := by
        rcases Nat.lt_trichotomy a c with hlt | heq | hgt
        · have := h a
          rw [read_cons, if_pos rfl, read_eq_none_of_lt (m := (c, d) :: n)
            (by simp only [List.mem_cons, forall_eq_or_imp]; exact ⟨hlt, fun r hr => by
                have := pn r hr; omega⟩)] at this
          simp at this
        · exact heq
        · have := h c
          rw [read_cons (m := n), if_pos rfl, read_eq_none_of_lt (m := (a, b) :: m)
            (by simp only [List.mem_cons, forall_eq_or_imp]; exact ⟨hgt, fun r hr => by
                have := pm r hr; omega⟩)] at this
          simp at this
      subst hac
      have hb : b = d := by simpa [read_cons] using h a
      subst hb
      congr 1
      refine ih (wf_tail hm) (wf_tail hn) fun x => ?_
      have hx := h x
      rw [read_cons, read_cons] at hx
      by_cases hax : a = x
      · subst hax
        rw [read_eq_none_of_lt pm, read_eq_none_of_lt pn]
      · simpa [hax] using hx

end Sys2Proof.Machine
end

