-- ==== Sys2Proof/Laws/State.lean ====
section
/-! SUPPORT. What each named update of State does to each field, and what it leaves: one lemma per
field per update, so that no proof unfolds a record update. -/

namespace Sys2Proof.Machine

variable (s : State)

/-! ### `raise` -/

@[simp] theorem State.raise_seq (c : Cause) : (s.raise c).seq = s.seq := rfl
@[simp] theorem State.raise_cursor (c : Cause) : (s.raise c).cursor = s.cursor := rfl
@[simp] theorem State.raise_fault (c : Cause) : (s.raise c).fault = s.fault ||| c.bit := rfl
@[simp] theorem State.raise_gateDone (c : Cause) : (s.raise c).gateDone = s.gateDone := rfl
@[simp] theorem State.raise_idtLoaded (c : Cause) : (s.raise c).idtLoaded = s.idtLoaded := rfl
@[simp] theorem State.raise_imrPri (c : Cause) : (s.raise c).imrPri = s.imrPri := rfl
@[simp] theorem State.raise_imrSec (c : Cause) : (s.raise c).imrSec = s.imrSec := rfl
@[simp] theorem State.raise_voffPriL (c : Cause) : (s.raise c).voffPriL = s.voffPriL := rfl
@[simp] theorem State.raise_voffSecL (c : Cause) : (s.raise c).voffSecL = s.voffSecL := rfl
@[simp] theorem State.raise_idtr (c : Cause) : (s.raise c).idtr = s.idtr := rfl
@[simp] theorem State.raise_mem (c : Cause) : (s.raise c).mem = s.mem := rfl
@[simp] theorem State.raise_portLog (c : Cause) : (s.raise c).portLog = s.portLog := rfl
@[simp] theorem State.raise_inService (c : Cause) : (s.raise c).inService = s.inService := rfl
@[simp] theorem State.raise_cpuIf (c : Cause) : (s.raise c).cpuIf = s.cpuIf := rfl
@[simp] theorem State.raise_cfg (c : Cause) : (s.raise c).cfg = s.cfg := rfl
@[simp] theorem State.raise_inputs (c : Cause) : (s.raise c).inputs = s.inputs := rfl
@[simp] theorem State.raise_portAnswers (c : Cause) : (s.raise c).portAnswers = s.portAnswers := rfl
@[simp] theorem State.raise_draws (c : Cause) : (s.raise c).draws = s.draws := rfl

/-! ### `portWrite` -/

@[simp] theorem State.portWrite_seq (p : Port) (b : Byte) : (s.portWrite p b).seq = s.seq := rfl
@[simp] theorem State.portWrite_cursor (p : Port) (b : Byte) : (s.portWrite p b).cursor = s.cursor := rfl
@[simp] theorem State.portWrite_fault (p : Port) (b : Byte) : (s.portWrite p b).fault = s.fault := rfl
@[simp] theorem State.portWrite_gateDone (p : Port) (b : Byte) : (s.portWrite p b).gateDone = s.gateDone := rfl
@[simp] theorem State.portWrite_idtLoaded (p : Port) (b : Byte) : (s.portWrite p b).idtLoaded = s.idtLoaded := rfl
@[simp] theorem State.portWrite_imrPri (p : Port) (b : Byte) : (s.portWrite p b).imrPri = s.imrPri := rfl
@[simp] theorem State.portWrite_imrSec (p : Port) (b : Byte) : (s.portWrite p b).imrSec = s.imrSec := rfl
@[simp] theorem State.portWrite_voffPriL (p : Port) (b : Byte) : (s.portWrite p b).voffPriL = s.voffPriL := rfl
@[simp] theorem State.portWrite_voffSecL (p : Port) (b : Byte) : (s.portWrite p b).voffSecL = s.voffSecL := rfl
@[simp] theorem State.portWrite_idtr (p : Port) (b : Byte) : (s.portWrite p b).idtr = s.idtr := rfl
@[simp] theorem State.portWrite_mem (p : Port) (b : Byte) : (s.portWrite p b).mem = s.mem := rfl
@[simp] theorem State.portWrite_portLog (p : Port) (b : Byte) : (s.portWrite p b).portLog = s.portLog ++ [⟨.write, p, b⟩] := rfl
@[simp] theorem State.portWrite_inService (p : Port) (b : Byte) : (s.portWrite p b).inService = s.inService := rfl
@[simp] theorem State.portWrite_cpuIf (p : Port) (b : Byte) : (s.portWrite p b).cpuIf = s.cpuIf := rfl
@[simp] theorem State.portWrite_cfg (p : Port) (b : Byte) : (s.portWrite p b).cfg = s.cfg := rfl
@[simp] theorem State.portWrite_inputs (p : Port) (b : Byte) : (s.portWrite p b).inputs = s.inputs := rfl
@[simp] theorem State.portWrite_portAnswers (p : Port) (b : Byte) : (s.portWrite p b).portAnswers = s.portAnswers := rfl
@[simp] theorem State.portWrite_draws (p : Port) (b : Byte) : (s.portWrite p b).draws = s.draws := rfl

/-! ### `writeBothControllers` -/

@[simp] theorem State.writeBothControllers_seq (p q : Port) (b c : Byte) : (s.writeBothControllers p q b c).seq = s.seq := rfl
@[simp] theorem State.writeBothControllers_cursor (p q : Port) (b c : Byte) : (s.writeBothControllers p q b c).cursor = s.cursor := rfl
@[simp] theorem State.writeBothControllers_fault (p q : Port) (b c : Byte) : (s.writeBothControllers p q b c).fault = s.fault := rfl
@[simp] theorem State.writeBothControllers_gateDone (p q : Port) (b c : Byte) : (s.writeBothControllers p q b c).gateDone = s.gateDone := rfl
@[simp] theorem State.writeBothControllers_idtLoaded (p q : Port) (b c : Byte) : (s.writeBothControllers p q b c).idtLoaded = s.idtLoaded := rfl
@[simp] theorem State.writeBothControllers_imrPri (p q : Port) (b c : Byte) : (s.writeBothControllers p q b c).imrPri = s.imrPri := rfl
@[simp] theorem State.writeBothControllers_imrSec (p q : Port) (b c : Byte) : (s.writeBothControllers p q b c).imrSec = s.imrSec := rfl
@[simp] theorem State.writeBothControllers_voffPriL (p q : Port) (b c : Byte) : (s.writeBothControllers p q b c).voffPriL = s.voffPriL := rfl
@[simp] theorem State.writeBothControllers_voffSecL (p q : Port) (b c : Byte) : (s.writeBothControllers p q b c).voffSecL = s.voffSecL := rfl
@[simp] theorem State.writeBothControllers_idtr (p q : Port) (b c : Byte) : (s.writeBothControllers p q b c).idtr = s.idtr := rfl
@[simp] theorem State.writeBothControllers_mem (p q : Port) (b c : Byte) : (s.writeBothControllers p q b c).mem = s.mem := rfl
@[simp] theorem State.writeBothControllers_portLog (p q : Port) (b c : Byte) : (s.writeBothControllers p q b c).portLog = s.portLog ++ [⟨.write, p, b⟩] ++ [⟨.write, q, c⟩] := rfl
@[simp] theorem State.writeBothControllers_inService (p q : Port) (b c : Byte) : (s.writeBothControllers p q b c).inService = s.inService := rfl
@[simp] theorem State.writeBothControllers_cpuIf (p q : Port) (b c : Byte) : (s.writeBothControllers p q b c).cpuIf = s.cpuIf := rfl
@[simp] theorem State.writeBothControllers_cfg (p q : Port) (b c : Byte) : (s.writeBothControllers p q b c).cfg = s.cfg := rfl
@[simp] theorem State.writeBothControllers_inputs (p q : Port) (b c : Byte) : (s.writeBothControllers p q b c).inputs = s.inputs := rfl
@[simp] theorem State.writeBothControllers_portAnswers (p q : Port) (b c : Byte) : (s.writeBothControllers p q b c).portAnswers = s.portAnswers := rfl
@[simp] theorem State.writeBothControllers_draws (p q : Port) (b c : Byte) : (s.writeBothControllers p q b c).draws = s.draws := rfl

/-! ### `afterPortRead` -/

@[simp] theorem State.afterPortRead_seq (p : Port) : (s.afterPortRead p).seq = s.seq := rfl
@[simp] theorem State.afterPortRead_cursor (p : Port) : (s.afterPortRead p).cursor = s.cursor := rfl
@[simp] theorem State.afterPortRead_fault (p : Port) : (s.afterPortRead p).fault = s.fault := rfl
@[simp] theorem State.afterPortRead_gateDone (p : Port) : (s.afterPortRead p).gateDone = s.gateDone := rfl
@[simp] theorem State.afterPortRead_idtLoaded (p : Port) : (s.afterPortRead p).idtLoaded = s.idtLoaded := rfl
@[simp] theorem State.afterPortRead_imrPri (p : Port) : (s.afterPortRead p).imrPri = s.imrPri := rfl
@[simp] theorem State.afterPortRead_imrSec (p : Port) : (s.afterPortRead p).imrSec = s.imrSec := rfl
@[simp] theorem State.afterPortRead_voffPriL (p : Port) : (s.afterPortRead p).voffPriL = s.voffPriL := rfl
@[simp] theorem State.afterPortRead_voffSecL (p : Port) : (s.afterPortRead p).voffSecL = s.voffSecL := rfl
@[simp] theorem State.afterPortRead_idtr (p : Port) : (s.afterPortRead p).idtr = s.idtr := rfl
@[simp] theorem State.afterPortRead_mem (p : Port) : (s.afterPortRead p).mem = s.mem := rfl
@[simp] theorem State.afterPortRead_portLog (p : Port) : (s.afterPortRead p).portLog = s.portLog ++ [⟨.read, p, s.answerAt 0⟩] := rfl
@[simp] theorem State.afterPortRead_inService (p : Port) : (s.afterPortRead p).inService = s.inService := rfl
@[simp] theorem State.afterPortRead_cpuIf (p : Port) : (s.afterPortRead p).cpuIf = s.cpuIf := rfl
@[simp] theorem State.afterPortRead_cfg (p : Port) : (s.afterPortRead p).cfg = s.cfg := rfl
@[simp] theorem State.afterPortRead_inputs (p : Port) : (s.afterPortRead p).inputs = s.inputs := rfl
@[simp] theorem State.afterPortRead_portAnswers (p : Port) : (s.afterPortRead p).portAnswers = s.portAnswers.tail := rfl
@[simp] theorem State.afterPortRead_draws (p : Port) : (s.afterPortRead p).draws = s.draws + 1 := rfl

/-! ### `tableLoad` -/

@[simp] theorem State.tableLoad_seq (ws : BitVec 32 × BitVec 32) : (s.tableLoad ws).seq = s.seq := rfl
@[simp] theorem State.tableLoad_cursor (ws : BitVec 32 × BitVec 32) : (s.tableLoad ws).cursor = s.cursor := rfl
@[simp] theorem State.tableLoad_fault (ws : BitVec 32 × BitVec 32) : (s.tableLoad ws).fault = s.fault := rfl
@[simp] theorem State.tableLoad_gateDone (ws : BitVec 32 × BitVec 32) : (s.tableLoad ws).gateDone = s.gateDone := rfl
@[simp] theorem State.tableLoad_idtLoaded (ws : BitVec 32 × BitVec 32) : (s.tableLoad ws).idtLoaded = s.idtLoaded := rfl
@[simp] theorem State.tableLoad_imrPri (ws : BitVec 32 × BitVec 32) : (s.tableLoad ws).imrPri = s.imrPri := rfl
@[simp] theorem State.tableLoad_imrSec (ws : BitVec 32 × BitVec 32) : (s.tableLoad ws).imrSec = s.imrSec := rfl
@[simp] theorem State.tableLoad_voffPriL (ws : BitVec 32 × BitVec 32) : (s.tableLoad ws).voffPriL = s.voffPriL := rfl
@[simp] theorem State.tableLoad_voffSecL (ws : BitVec 32 × BitVec 32) : (s.tableLoad ws).voffSecL = s.voffSecL := rfl
@[simp] theorem State.tableLoad_idtr (ws : BitVec 32 × BitVec 32) : (s.tableLoad ws).idtr = unpackTableDescriptor ws.1 ws.2 := rfl
@[simp] theorem State.tableLoad_mem (ws : BitVec 32 × BitVec 32) : (s.tableLoad ws).mem = s.mem := rfl
@[simp] theorem State.tableLoad_portLog (ws : BitVec 32 × BitVec 32) : (s.tableLoad ws).portLog = s.portLog := rfl
@[simp] theorem State.tableLoad_inService (ws : BitVec 32 × BitVec 32) : (s.tableLoad ws).inService = s.inService := rfl
@[simp] theorem State.tableLoad_cpuIf (ws : BitVec 32 × BitVec 32) : (s.tableLoad ws).cpuIf = s.cpuIf := rfl
@[simp] theorem State.tableLoad_cfg (ws : BitVec 32 × BitVec 32) : (s.tableLoad ws).cfg = s.cfg := rfl
@[simp] theorem State.tableLoad_inputs (ws : BitVec 32 × BitVec 32) : (s.tableLoad ws).inputs = s.inputs := rfl
@[simp] theorem State.tableLoad_portAnswers (ws : BitVec 32 × BitVec 32) : (s.tableLoad ws).portAnswers = s.portAnswers := rfl
@[simp] theorem State.tableLoad_draws (ws : BitVec 32 × BitVec 32) : (s.tableLoad ws).draws = s.draws := rfl

/-! ### `takeInterrupt` -/

@[simp] theorem State.takeInterrupt_seq : (s.takeInterrupt).seq = s.seq := rfl
@[simp] theorem State.takeInterrupt_cursor : (s.takeInterrupt).cursor = s.cursor := rfl
@[simp] theorem State.takeInterrupt_fault : (s.takeInterrupt).fault = s.fault := rfl
@[simp] theorem State.takeInterrupt_gateDone : (s.takeInterrupt).gateDone = s.gateDone := rfl
@[simp] theorem State.takeInterrupt_idtLoaded : (s.takeInterrupt).idtLoaded = s.idtLoaded := rfl
@[simp] theorem State.takeInterrupt_imrPri : (s.takeInterrupt).imrPri = s.imrPri := rfl
@[simp] theorem State.takeInterrupt_imrSec : (s.takeInterrupt).imrSec = s.imrSec := rfl
@[simp] theorem State.takeInterrupt_voffPriL : (s.takeInterrupt).voffPriL = s.voffPriL := rfl
@[simp] theorem State.takeInterrupt_voffSecL : (s.takeInterrupt).voffSecL = s.voffSecL := rfl
@[simp] theorem State.takeInterrupt_idtr : (s.takeInterrupt).idtr = s.idtr := rfl
@[simp] theorem State.takeInterrupt_mem : (s.takeInterrupt).mem = s.mem := rfl
@[simp] theorem State.takeInterrupt_portLog : (s.takeInterrupt).portLog = s.portLog := rfl
@[simp] theorem State.takeInterrupt_inService : (s.takeInterrupt).inService = true := rfl
@[simp] theorem State.takeInterrupt_cpuIf : (s.takeInterrupt).cpuIf = s.cpuIf := rfl
@[simp] theorem State.takeInterrupt_cfg : (s.takeInterrupt).cfg = s.cfg := rfl
@[simp] theorem State.takeInterrupt_inputs : (s.takeInterrupt).inputs = s.inputs := rfl
@[simp] theorem State.takeInterrupt_portAnswers : (s.takeInterrupt).portAnswers = s.portAnswers := rfl
@[simp] theorem State.takeInterrupt_draws : (s.takeInterrupt).draws = s.draws := rfl

/-! ### `badGate` -/

@[simp] theorem State.badGate_seq : (s.badGate).seq = s.seq := rfl
@[simp] theorem State.badGate_cursor : (s.badGate).cursor = s.cursor := rfl
@[simp] theorem State.badGate_fault : (s.badGate).fault = s.fault ||| Cause.vector.bit := rfl
@[simp] theorem State.badGate_gateDone : (s.badGate).gateDone = s.gateDone := rfl
@[simp] theorem State.badGate_idtLoaded : (s.badGate).idtLoaded = s.idtLoaded := rfl
@[simp] theorem State.badGate_imrPri : (s.badGate).imrPri = s.imrPri := rfl
@[simp] theorem State.badGate_imrSec : (s.badGate).imrSec = s.imrSec := rfl
@[simp] theorem State.badGate_voffPriL : (s.badGate).voffPriL = s.voffPriL := rfl
@[simp] theorem State.badGate_voffSecL : (s.badGate).voffSecL = s.voffSecL := rfl
@[simp] theorem State.badGate_idtr : (s.badGate).idtr = s.idtr := rfl
@[simp] theorem State.badGate_mem : (s.badGate).mem = s.mem := rfl
@[simp] theorem State.badGate_portLog : (s.badGate).portLog = s.portLog := rfl
@[simp] theorem State.badGate_inService : (s.badGate).inService = true := rfl
@[simp] theorem State.badGate_cpuIf : (s.badGate).cpuIf = s.cpuIf := rfl
@[simp] theorem State.badGate_cfg : (s.badGate).cfg = s.cfg := rfl
@[simp] theorem State.badGate_inputs : (s.badGate).inputs = s.inputs := rfl
@[simp] theorem State.badGate_portAnswers : (s.badGate).portAnswers = s.portAnswers := rfl
@[simp] theorem State.badGate_draws : (s.badGate).draws = s.draws := rfl

/-! ### `endOfInterrupt` -/

@[simp] theorem State.endOfInterrupt_seq : (s.endOfInterrupt).seq = s.seq := rfl
@[simp] theorem State.endOfInterrupt_cursor : (s.endOfInterrupt).cursor = s.cursor := rfl
@[simp] theorem State.endOfInterrupt_fault : (s.endOfInterrupt).fault = s.fault := rfl
@[simp] theorem State.endOfInterrupt_gateDone : (s.endOfInterrupt).gateDone = s.gateDone := rfl
@[simp] theorem State.endOfInterrupt_idtLoaded : (s.endOfInterrupt).idtLoaded = s.idtLoaded := rfl
@[simp] theorem State.endOfInterrupt_imrPri : (s.endOfInterrupt).imrPri = s.imrPri := rfl
@[simp] theorem State.endOfInterrupt_imrSec : (s.endOfInterrupt).imrSec = s.imrSec := rfl
@[simp] theorem State.endOfInterrupt_voffPriL : (s.endOfInterrupt).voffPriL = s.voffPriL := rfl
@[simp] theorem State.endOfInterrupt_voffSecL : (s.endOfInterrupt).voffSecL = s.voffSecL := rfl
@[simp] theorem State.endOfInterrupt_idtr : (s.endOfInterrupt).idtr = s.idtr := rfl
@[simp] theorem State.endOfInterrupt_mem : (s.endOfInterrupt).mem = s.mem := rfl
@[simp] theorem State.endOfInterrupt_portLog : (s.endOfInterrupt).portLog = s.portLog ++ [⟨.write, s.cfg.pic1Cmd, s.cfg.eoiCmd⟩] := rfl
@[simp] theorem State.endOfInterrupt_inService : (s.endOfInterrupt).inService = false := rfl
@[simp] theorem State.endOfInterrupt_cpuIf : (s.endOfInterrupt).cpuIf = s.cpuIf := rfl
@[simp] theorem State.endOfInterrupt_cfg : (s.endOfInterrupt).cfg = s.cfg := rfl
@[simp] theorem State.endOfInterrupt_inputs : (s.endOfInterrupt).inputs = s.inputs := rfl
@[simp] theorem State.endOfInterrupt_portAnswers : (s.endOfInterrupt).portAnswers = s.portAnswers := rfl
@[simp] theorem State.endOfInterrupt_draws : (s.endOfInterrupt).draws = s.draws := rfl

/-! ### `pushCommand` -/

@[simp] theorem State.pushCommand_seq (w : CommandWord) : (s.pushCommand w).seq = s.seq := rfl
@[simp] theorem State.pushCommand_cursor (w : CommandWord) : (s.pushCommand w).cursor = s.cursor := rfl
@[simp] theorem State.pushCommand_fault (w : CommandWord) : (s.pushCommand w).fault = s.fault := rfl
@[simp] theorem State.pushCommand_gateDone (w : CommandWord) : (s.pushCommand w).gateDone = s.gateDone := rfl
@[simp] theorem State.pushCommand_idtLoaded (w : CommandWord) : (s.pushCommand w).idtLoaded = s.idtLoaded := rfl
@[simp] theorem State.pushCommand_imrPri (w : CommandWord) : (s.pushCommand w).imrPri = s.imrPri := rfl
@[simp] theorem State.pushCommand_imrSec (w : CommandWord) : (s.pushCommand w).imrSec = s.imrSec := rfl
@[simp] theorem State.pushCommand_voffPriL (w : CommandWord) : (s.pushCommand w).voffPriL = s.voffPriL := rfl
@[simp] theorem State.pushCommand_voffSecL (w : CommandWord) : (s.pushCommand w).voffSecL = s.voffSecL := rfl
@[simp] theorem State.pushCommand_idtr (w : CommandWord) : (s.pushCommand w).idtr = s.idtr := rfl
@[simp] theorem State.pushCommand_mem (w : CommandWord) : (s.pushCommand w).mem = s.mem := rfl
@[simp] theorem State.pushCommand_portLog (w : CommandWord) : (s.pushCommand w).portLog = s.portLog := rfl
@[simp] theorem State.pushCommand_inService (w : CommandWord) : (s.pushCommand w).inService = s.inService := rfl
@[simp] theorem State.pushCommand_cpuIf (w : CommandWord) : (s.pushCommand w).cpuIf = s.cpuIf := rfl
@[simp] theorem State.pushCommand_cfg (w : CommandWord) : (s.pushCommand w).cfg = s.cfg := rfl
@[simp] theorem State.pushCommand_inputs (w : CommandWord) : (s.pushCommand w).inputs = .command w :: s.inputs := rfl
@[simp] theorem State.pushCommand_portAnswers (w : CommandWord) : (s.pushCommand w).portAnswers = s.portAnswers := rfl
@[simp] theorem State.pushCommand_draws (w : CommandWord) : (s.pushCommand w).draws = s.draws := rfl

/-! ### `schedule` -/

@[simp] theorem State.schedule_seq (is : List Instr) : (s.schedule is).seq = s.seq := rfl
@[simp] theorem State.schedule_cursor (is : List Instr) : (s.schedule is).cursor = s.cursor := rfl
@[simp] theorem State.schedule_fault (is : List Instr) : (s.schedule is).fault = s.fault := rfl
@[simp] theorem State.schedule_gateDone (is : List Instr) : (s.schedule is).gateDone = s.gateDone := rfl
@[simp] theorem State.schedule_idtLoaded (is : List Instr) : (s.schedule is).idtLoaded = s.idtLoaded := rfl
@[simp] theorem State.schedule_imrPri (is : List Instr) : (s.schedule is).imrPri = s.imrPri := rfl
@[simp] theorem State.schedule_imrSec (is : List Instr) : (s.schedule is).imrSec = s.imrSec := rfl
@[simp] theorem State.schedule_voffPriL (is : List Instr) : (s.schedule is).voffPriL = s.voffPriL := rfl
@[simp] theorem State.schedule_voffSecL (is : List Instr) : (s.schedule is).voffSecL = s.voffSecL := rfl
@[simp] theorem State.schedule_idtr (is : List Instr) : (s.schedule is).idtr = s.idtr := rfl
@[simp] theorem State.schedule_mem (is : List Instr) : (s.schedule is).mem = s.mem := rfl
@[simp] theorem State.schedule_portLog (is : List Instr) : (s.schedule is).portLog = s.portLog := rfl
@[simp] theorem State.schedule_inService (is : List Instr) : (s.schedule is).inService = s.inService := rfl
@[simp] theorem State.schedule_cpuIf (is : List Instr) : (s.schedule is).cpuIf = s.cpuIf := rfl
@[simp] theorem State.schedule_cfg (is : List Instr) : (s.schedule is).cfg = s.cfg := rfl
@[simp] theorem State.schedule_inputs (is : List Instr) : (s.schedule is).inputs = commandInputs is ++ s.inputs := rfl
@[simp] theorem State.schedule_portAnswers (is : List Instr) : (s.schedule is).portAnswers = s.portAnswers := rfl
@[simp] theorem State.schedule_draws (is : List Instr) : (s.schedule is).draws = s.draws := rfl

end Sys2Proof.Machine
end

