-- ==== Sys2Proof/Laws/Ops.lean ====
section
/-! SUPPORT. For each shared operation, once, everything it can do: provers cite these instead of
unfolding the operation. -/

namespace Sys2Proof.Machine

variable {s t : State}

/-! ### Sequencing -/

@[simp] theorem onNext_next (s : State) (k : State → Out) : onNext (.next s) k = k s := rfl

@[simp] theorem onNext_fault (r : Fault) (k : State → Out) : onNext (.fault r) k = .fault r := rfl

@[simp] theorem onNext_refused (r : Refusal) (k : State → Out) :
    onNext (.refused r) k = .refused r := rfl

/-- What a sequence that answers a next state has done. -/
theorem onNext_eq_next {o : Out} {k : State → Out} (h : onNext o k = .next t) :
    ∃ u, o = .next u ∧ k u = .next t := by
  cases o with
  | next u => exact ⟨u, rfl, h⟩
  | fault r => cases h
  | refused r => cases h

/-! ### Stores -/

/-- A store that fits in the address space writes its run and nothing else. -/
theorem storeBytes_of_fits {a n : Nat} (h : a + n ≤ 2 ^ 32) (bs : List Byte) :
    s.storeBytes a n bs = .next { s with mem := s.mem.writeBytes a bs } := by
  rw [State.storeBytes, if_pos h]

/-- Everything a store can do when it answers a next state. -/
theorem storeBytes_eq_next {a n : Nat} {bs : List Byte} (h : s.storeBytes a n bs = .next t) :
    a + n ≤ 2 ^ 32 ∧ t = { s with mem := s.mem.writeBytes a bs } := by
  unfold State.storeBytes at h
  split at h
  · next hf => cases h; exact ⟨hf, rfl⟩
  · cases h

/-- In a configuration of R8 the gate is always installed (R70). -/
theorem installGate_of_wf (h : s.cfg.wf) (sel : Half) (haddr : Addr) :
    s.installGate sel haddr
      = .next { s with mem := s.mem.writeBytes s.cfg.kbdEntry (gateBytes s.cfg sel haddr) } :=
  storeBytes_of_fits (Config.kbdEntry_fits h) _

/-! ### Admission -/

theorem inStage_of_eq {req : BitVec 3} {body : Out} (h : s.seq = req) :
    s.inStage req body = body := by simp [State.inStage, h]

theorem inStage_of_ne {req : BitVec 3} {body : Out} (h : s.seq ≠ req) :
    s.inStage req body = .next (s.raise .order) := by simp [State.inStage, h]

/-- Everything a staged command can do when it answers a next state (R77). -/
theorem inStage_eq_next {req : BitVec 3} {body : Out} (h : s.inStage req body = .next t) :
    (s.seq = req ∧ body = .next t) ∨ (s.seq ≠ req ∧ t = s.raise .order) := by
  unfold State.inStage at h
  split at h
  · next hq => exact .inl ⟨hq, h⟩
  · next hq => cases h; exact .inr ⟨hq, rfl⟩

/-! ### Port reads -/

/-- A port read uses up one answer. -/
@[simp] theorem answerAt_afterPortRead (s : State) (p : Port) (k : Nat) :
    (s.afterPortRead p).answerAt k = s.answerAt (k + 1) := by
  simp [State.answerAt, Nat.add_assoc, Nat.add_comm 1 k]

@[simp] theorem answerAt_endOfInterrupt (s : State) (k : Nat) :
    s.endOfInterrupt.answerAt k = s.answerAt k := rfl

@[simp] theorem answerAt_takeInterrupt (s : State) (k : Nat) :
    s.takeInterrupt.answerAt k = s.answerAt k := rfl

/-- A supplied answer is what the read answers (R24). -/
theorem answerAt_of_supplied {k : Nat} {b : Byte} (h : s.portAnswers[k]? = some b) :
    s.answerAt k = b := by simp [State.answerAt, h]

/-- With no answer supplied, the read answers the free value (R24, log 6). -/
theorem answerAt_of_none {k : Nat} (h : s.portAnswers[k]? = none) :
    s.answerAt k = Config.freePortByte (s.draws + k) := by simp [State.answerAt, h]

/-! ### Text buffer -/

/-- At the end of the buffer a character is rejected (R91). -/
theorem putCell_of_full {ch : Byte} (h : s.cfg.len < s.cursor.toNat + 2) :
    s.putCell ch = .next (s.raise .bounds) := by simp [State.putCell, h]

/-- Before the end a character is stored with its attribute, and the cursor moves by two (R91). -/
theorem putCell_of_room {ch : Byte} (hc : s.cfg.wf) (h : s.cursor.toNat + 2 ≤ s.cfg.len) :
    s.putCell ch = .next { s with
      mem := s.mem.writeBytes (s.cfg.tbAddr s.cursor.toNat) [ch, s.cfg.tbAttr]
      cursor := BitVec.ofNat 16 (s.cursor.toNat + 2) } := by
  have hf : s.cfg.tbAddr s.cursor.toNat + 2 ≤ 2 ^ 32 := Config.tbAddr_fits hc h
  have hl : ¬ s.cfg.len < s.cursor.toNat + 2 := by omega
  simp only [State.putCell, gt_iff_lt, hl, if_false, storeBytes_of_fits hf, onNext_next, cellBytes]

/-- Everything `putCell` can do when it answers a next state. -/
theorem putCell_eq_next {ch : Byte} (h : s.putCell ch = .next t) :
    (s.cfg.len < s.cursor.toNat + 2 ∧ t = s.raise .bounds) ∨
    (s.cursor.toNat + 2 ≤ s.cfg.len ∧ t = { s with
      mem := s.mem.writeBytes (s.cfg.tbAddr s.cursor.toNat) [ch, s.cfg.tbAttr]
      cursor := BitVec.ofNat 16 (s.cursor.toNat + 2) }) := by
  unfold State.putCell at h
  split at h
  · next hb => cases h; exact .inl ⟨hb, rfl⟩
  · next hb =>
    obtain ⟨u, hu, hk⟩ := onNext_eq_next h
    obtain ⟨-, rfl⟩ := storeBytes_eq_next hu
    cases hk
    exact .inr ⟨by omega, rfl⟩

/-- Everything a row advance does: it always answers a next state (R93). -/
theorem advanceRow_eq (s : State) :
    s.advanceRow = .next (if s.cfg.len < nextRowBoundary s.cfg s.cursor.toNat then s.raise .bounds
      else { s with cursor := BitVec.ofNat 16 (nextRowBoundary s.cfg s.cursor.toNat) }) := by
  unfold State.advanceRow
  split <;> rfl

/-- In a configuration of R8 a clear always completes (R90). -/
theorem clearBuffer_of_wf (h : s.cfg.wf) :
    s.clearBuffer = .next { s with
      mem := s.mem.writeBytes (s.cfg.tbAddr 0) (clearedBuffer s.cfg)
      cursor := 0 } := by
  have hf : s.cfg.tbAddr 0 + s.cfg.len ≤ 2 ^ 32 := by
    have := h.2.2.2.2.1.2
    simp only [Config.tbAddr]
    omega
  simp only [State.clearBuffer, storeBytes_of_fits hf, onNext_next]

/-- Everything a clear can do when it answers a next state. -/
theorem clearBuffer_eq_next (h : s.clearBuffer = .next t) :
    t = { s with
      mem := s.mem.writeBytes (s.cfg.tbAddr 0) (clearedBuffer s.cfg)
      cursor := 0 } := by
  obtain ⟨u, hu, hk⟩ := onNext_eq_next h
  obtain ⟨-, rfl⟩ := storeBytes_eq_next hu
  cases hk
  rfl

/-! ### The keyboard service -/

theorem classifyKey_release {c : Config} {code : Byte} (h : code.getLsbD 7 = true) :
    classifyKey c code = .release := by
  rw [classifyKey, if_pos h]

theorem classifyKey_enter {c : Config} {code : Byte} (h : code.getLsbD 7 = false)
    (he : code = c.enterCode) : classifyKey c code = .enter := by
  rw [classifyKey, if_neg (by simp only [h, Bool.false_eq_true, not_false_iff]), if_pos he]

theorem classifyKey_press {c : Config} {code : Byte} (h : code.getLsbD 7 = false)
    (he : code ≠ c.enterCode) : classifyKey c code = .press (code.extractLsb' 0 7) := by
  rw [classifyKey, if_neg (by simp only [h, Bool.false_eq_true, not_false_iff]), if_neg he]

/-- Everything the key dispatch can do (R100 steps 4 to 6). -/
theorem dispatchKey_cases (s : State) (code : Byte) :
    (code.getLsbD 7 = true ∧ s.dispatchKey code = .next s) ∨
    (code.getLsbD 7 = false ∧ code = s.cfg.enterCode ∧ s.dispatchKey code = s.advanceRow) ∨
    (code.getLsbD 7 = false ∧ code ≠ s.cfg.enterCode ∧
      s.dispatchKey code = s.putCell (scanLookup s.cfg (code.extractLsb' 0 7))) := by
  cases h : code.getLsbD 7 with
  | true => exact .inl ⟨rfl, by simp only [State.dispatchKey, classifyKey_release h]⟩
  | false =>
    by_cases he : code = s.cfg.enterCode
    · exact .inr (.inl ⟨rfl, he, by simp only [State.dispatchKey, classifyKey_enter h he]⟩)
    · exact .inr (.inr ⟨rfl, he, by simp only [State.dispatchKey, classifyKey_press h he]⟩)

/-- No code ready: one read, and no further action (R100 step 2). -/
theorem serveKeyboard_of_notReady (h : ¬ dataReady (s.answerAt 0)) :
    s.serveKeyboard = .next (s.afterPortRead s.cfg.kbdStatus) := by
  simp only [State.serveKeyboard]
  exact if_neg h

/-- A code ready: two reads, then the dispatch on the second answer (R100 steps 2 to 6). -/
theorem serveKeyboard_of_ready (h : dataReady (s.answerAt 0)) :
    s.serveKeyboard
      = ((s.afterPortRead s.cfg.kbdStatus).afterPortRead s.cfg.kbdData).dispatchKey
          (s.answerAt 1) := by
  simp only [State.serveKeyboard, answerAt_afterPortRead]
  exact if_pos h

/-! ### The agents and the step -/

theorem issue_of_ok {w : CommandWord} {i : Instr} (h : decode w = .ok i) :
    issue w s = exec i s := by simp [issue, h]

theorem issue_of_error {w : CommandWord} {e : DecodeError} (h : decode w = .error e) :
    issue w s = .next (s.raise .illegal) := by simp [issue, h]

/-- Everything an offered key event can do (R113, R114). -/
theorem deliver_cases (s : State) :
    (¬ s.DeliveryEnabled ∧ deliver s = .next s) ∨
    (s.DeliveryEnabled ∧ s.DeliveryLeadsToService ∧
      deliver s = exec .kbdService s.takeInterrupt) ∨
    (s.DeliveryEnabled ∧ ¬ s.DeliveryLeadsToService ∧ deliver s = .next s.badGate) := by
  unfold deliver
  split
  · next h =>
    split
    · next h' => exact .inr (.inl ⟨h, h', rfl⟩)
    · next h' => exact .inr (.inr ⟨h, h', rfl⟩)
  · next h => exact .inl ⟨h, rfl⟩

/-- Everything a step can do, by the next input: with none it idles, a word that decodes runs its
command, one that does not raises `F_ILLEGAL`, and the other two act on the platform's state. -/
theorem step_cases (s : State) :
    (s.inputs = [] ∧ step s = .next s) ∨
    ∃ e rest, s.inputs = e :: rest ∧
      ((∃ w i, e = .command w ∧ decode w = .ok i ∧
          step s = exec i { s with inputs := rest }) ∨
        (∃ w r, e = .command w ∧ decode w = .error r ∧
          step s = .next (({ s with inputs := rest } : State).raise .illegal)) ∨
        (∃ on, e = .setCpuIf on ∧ step s = .next { s with inputs := rest, cpuIf := on }) ∨
        (e = .keyEvent ∧ step s = deliver { s with inputs := rest })) := by
  cases hi : s.inputs with
  | nil => exact .inl ⟨rfl, by simp [step, runNextInput, hi]⟩
  | cons e rest =>
    refine .inr ⟨e, rest, rfl, ?_⟩
    have hs : step s = act e { s with inputs := rest } := by simp [step, runNextInput, hi]
    cases e with
    | command w =>
      cases hd : decode w with
      | ok i => exact .inl ⟨w, i, rfl, hd, hs.trans (issue_of_ok hd)⟩
      | error r => exact .inr (.inl ⟨w, r, rfl, hd, hs.trans (issue_of_error hd)⟩)
    | setCpuIf on => exact .inr (.inr (.inl ⟨on, rfl, hs⟩))
    | keyEvent => exact .inr (.inr (.inr ⟨rfl, hs⟩))

end Sys2Proof.Machine
end

