-- ==== Sys2Proof/Laws/Inv.lean ====
section
/-! SUPPORT. The invariant depends only on the registers and memory it names. -/

namespace Sys2Proof.Machine

variable {s t : State}

/-- A state that agrees with a good one on every field the invariant names is good; `FAULT`, `PORTLOG`,
`CPU_IF` and the model's own fields play no part. -/
theorem State.Inv.of_same (h : s.Inv) (cfg : t.cfg = s.cfg) (mem : t.mem = s.mem)
    (cursor : t.cursor = s.cursor) (seq : t.seq = s.seq) (gate : t.gateDone = s.gateDone)
    (idt : t.idtLoaded = s.idtLoaded) (idtr : t.idtr = s.idtr)
    (imrP : t.imrPri = s.imrPri) (imrS : t.imrSec = s.imrSec)
    (voffP : t.voffPriL = s.voffPriL) (voffS : t.voffSecL = s.voffSecL)
    (service : t.inService = true → t.seq = sDone) : t.Inv := by
  obtain ⟨h₁, h₂, h₃, h₄, h₅, h₆, h₇, h₈, -⟩ := h
  constructor
  · rw [cfg]; exact h₁
  · rw [mem]; exact h₂
  · simp only [State.CursorOk, cursor, cfg]; exact h₃
  · simp only [State.StageOk, seq, gate, idt]; exact h₄
  · simp only [State.ShadowsOk, seq, cfg, imrP, imrS, voffP, voffS]; exact h₅
  · simp only [State.IdtrOk, idt, idtr, cfg]; exact h₆
  · simp only [State.WritesOk, mem, cfg, gate]; exact h₇
  · simp only [State.GateOk, gate, mem, cfg]; exact h₈
  · exact service

end Sys2Proof.Machine
end

