-- ==== Sys2Proof/Laws/PerInstr.lean ====
section
/-! SUPPORT. The families of statements made per instruction: `EncodingInTable` says that a command's
word is a word of the row of R54 with its mnemonic, whatever its operands. -/

namespace Sys2Proof.Laws.EncodingInTable

/-- The word of a command matches the row of its mnemonic (R54). -/
def Statement (i : Instr) : Prop :=
  ∃ r ∈ opcodeTable, r.mnemonic = mnemonic i ∧ r.Matches (encode i)

theorem gateSet (sel : Half) (haddr : Addr) : Statement (.gateSet sel haddr) := by
  refine ⟨⟨"GATE_SET", 0x1000000000000000, 0xFFFF000000000000⟩, by simp [opcodeTable], rfl, ?_⟩
  show encode (.gateSet sel haddr) &&& _ = _
  have h : (0xFFFF000000000000 : CommandWord) = 0xFFFF#16 ++ 0#16 ++ 0#32 := by decide
  have e : encode (.gateSet sel haddr) = 0x1000#16 ++ sel ++ haddr := by
    simp only [encode, opcode, operand]
    ext j hj
    simp only [BitVec.getElem_append]
    by_cases h₁ : j < 32
    · simp [h₁, show j < 56 by omega]
    · by_cases h₂ : j < 48
      · simp [h₁, show j < 56 by omega, show j - 32 < 16 by omega]
      · obtain ⟨k, rfl⟩ : ∃ k, j = 48 + k := ⟨j - 48, by omega⟩
        have hk : k < 16 := by omega
        interval_cases k <;> simp
  rw [e, h, BitVec.and_append, BitVec.and_append]
  simp

theorem tbPutc (ch : Byte) : Statement (.tbPutc ch) := by
  refine ⟨⟨"TB_PUTC", 0x3100000000000000, 0xFFFFFFFFFFFFFF00⟩, by simp [opcodeTable], rfl, ?_⟩
  show encode (.tbPutc ch) &&& _ = _
  have h : (0xFFFFFFFFFFFFFF00 : CommandWord) = 0xFF#8 ++ (0xFFFFFFFFFFFF#48 ++ 0#8) := by decide
  rw [encode, h, opcode, operand, BitVec.and_append, BitVec.and_append]
  simp

theorem idtLoad : Statement .idtLoad := by unfold Statement; decide
theorem picIcw1 : Statement .picIcw1 := by unfold Statement; decide
theorem picIcw2 : Statement .picIcw2 := by unfold Statement; decide
theorem picIcw3 : Statement .picIcw3 := by unfold Statement; decide
theorem picIcw4 : Statement .picIcw4 := by unfold Statement; decide
theorem picMaskAll : Statement .picMaskAll := by unfold Statement; decide
theorem picUnmaskKbd : Statement .picUnmaskKbd := by unfold Statement; decide
theorem tbClear : Statement .tbClear := by unfold Statement; decide
theorem tbNewline : Statement .tbNewline := by unfold Statement; decide
theorem kbdService : Statement .kbdService := by unfold Statement; decide

end Sys2Proof.Laws.EncodingInTable
end

