-- ==== Sys2Proof/Laws/Run.lean ====
section
/-! SUPPORT. What every command leaves to the agents, and the induction over runs, once. -/

namespace Sys2Proof.Machine

variable {s t : State}

/-- A key dispatch leaves the configuration, the schedule and `CPU_IF` alone. -/
theorem dispatchKey_agents {code : Byte} (h : s.dispatchKey code = .next t) :
    t.cfg = s.cfg ∧ t.inputs = s.inputs ∧ t.cpuIf = s.cpuIf := by
  rcases dispatchKey_cases s code with ⟨_, e⟩ | ⟨_, _, e⟩ | ⟨_, _, e⟩ <;> rw [e] at h
  · cases h; exact ⟨rfl, rfl, rfl⟩
  · rw [advanceRow_eq] at h
    cases h
    split <;> exact ⟨rfl, rfl, rfl⟩
  · rcases putCell_eq_next h with ⟨_, rfl⟩ | ⟨_, rfl⟩ <;> exact ⟨rfl, rfl, rfl⟩

/-- A keyboard service leaves the configuration, the schedule and `CPU_IF` alone. -/
theorem serveKeyboard_agents (h : s.serveKeyboard = .next t) :
    t.cfg = s.cfg ∧ t.inputs = s.inputs ∧ t.cpuIf = s.cpuIf := by
  by_cases hr : dataReady (s.answerAt 0)
  · rw [serveKeyboard_of_ready hr] at h
    simpa using dispatchKey_agents h
  · rw [serveKeyboard_of_notReady hr] at h
    cases h
    exact ⟨rfl, rfl, rfl⟩

/-- No command touches the configuration (R29), what the agents will do, or `CPU_IF` (R116). -/
theorem exec_agents {i : Instr} (h : exec i s = .next t) :
    t.cfg = s.cfg ∧ t.inputs = s.inputs ∧ t.cpuIf = s.cpuIf := by
  cases i with
  | gateSet sel haddr =>
    simp only [exec, execGateSet, State.installGate] at h
    split at h
    · cases h; exact ⟨rfl, rfl, rfl⟩
    · obtain ⟨u, hu, hk⟩ := onNext_eq_next h
      obtain ⟨-, rfl⟩ := storeBytes_eq_next hu
      cases hk
      exact ⟨rfl, rfl, rfl⟩
  | idtLoad =>
    simp only [exec, execIdtLoad] at h
    split at h <;> cases h <;> exact ⟨rfl, rfl, rfl⟩
  | picIcw1 => rcases inStage_eq_next h with ⟨_, e⟩ | ⟨_, rfl⟩ <;> [cases e; skip] <;> exact ⟨rfl, rfl, rfl⟩
  | picIcw2 => rcases inStage_eq_next h with ⟨_, e⟩ | ⟨_, rfl⟩ <;> [cases e; skip] <;> exact ⟨rfl, rfl, rfl⟩
  | picIcw3 => rcases inStage_eq_next h with ⟨_, e⟩ | ⟨_, rfl⟩ <;> [cases e; skip] <;> exact ⟨rfl, rfl, rfl⟩
  | picIcw4 => rcases inStage_eq_next h with ⟨_, e⟩ | ⟨_, rfl⟩ <;> [cases e; skip] <;> exact ⟨rfl, rfl, rfl⟩
  | picMaskAll => rcases inStage_eq_next h with ⟨_, e⟩ | ⟨_, rfl⟩ <;> [cases e; skip] <;> exact ⟨rfl, rfl, rfl⟩
  | picUnmaskKbd =>
    rcases inStage_eq_next h with ⟨_, e⟩ | ⟨_, rfl⟩
    · split at e <;> cases e <;> exact ⟨rfl, rfl, rfl⟩
    · exact ⟨rfl, rfl, rfl⟩
  | tbClear => rw [clearBuffer_eq_next h]; exact ⟨rfl, rfl, rfl⟩
  | tbPutc ch => rcases putCell_eq_next h with ⟨_, rfl⟩ | ⟨_, rfl⟩ <;> exact ⟨rfl, rfl, rfl⟩
  | tbNewline =>
    simp only [exec, execTbNewline, advanceRow_eq] at h
    cases h
    split <;> exact ⟨rfl, rfl, rfl⟩
  | kbdService =>
    simp only [exec, execKbdService] at h
    split at h
    · simpa using serveKeyboard_agents h
    · cases h; exact ⟨rfl, rfl, rfl⟩

/-- The induction over runs: a property that every step completes with and keeps holds at the end of
every run, and no run stops. -/
theorem run_of_step {P : State → Prop} (keep : ∀ s, P s → ∃ t, step s = .next t ∧ P t)
    (k : Nat) {s : State} (h : P s) : ∃ t, Sys2Proof.core.run k s = .next t ∧ P t := by
  induction k generalizing s with
  | zero => exact ⟨s, rfl, h⟩
  | succ k ih =>
    obtain ⟨t, ht, hP⟩ := keep s h
    obtain ⟨u, hu, hQ⟩ := ih hP
    refine ⟨u, ?_, hQ⟩
    have hs : Sys2Proof.core.step s = .next t := ht
    simp only [Host.Core.run, hs]
    exact hu

/-- A run of some steps and then more is the longer run. -/
theorem run_add (j k : Nat) {s t : State} (h : Sys2Proof.core.run j s = .next t) :
    Sys2Proof.core.run (j + k) s = Sys2Proof.core.run k t := by
  induction j generalizing s with
  | zero => cases h; rw [Nat.zero_add]
  | succ j ih =>
    rw [Nat.succ_add]
    simp only [Host.Core.run] at h ⊢
    split
    · next u hu => rw [hu] at h; exact ih h
    · next r hr => rw [hr] at h; cases h
    · next r hr => rw [hr] at h; cases h

end Sys2Proof.Machine
end

