-- ==== Sys2Proof/Tests/Slice0.lean ====
section
/-! SUPPORT. Tests: expected values come from spec/95_test_vectors.md (the part is named) or from the
formats of spec/30_encoding.md by hand. The `witness_` theorems show, for each statement with
hypotheses, concrete values that meet all of them together, one for each clause. -/

namespace Sys2Proof.Tests

open Sys2Proof Sys2Proof.Machine

/-! ### Helpers -/

/-- Two rows of two columns (`ROWB` 4, `LEN` 8), and the two table entries part 2.6 assumes. -/
def tiny : Config :=
  { Config.default with
    cols := 2, rows := 2, banner := [0x4F, 0x4B]
    scanTab := (Vector.replicate 128 (0x00 : Byte)).set 0x1E 0x61 }

/-- The reset state of the small configuration. -/
def fresh : State := State.resetWith tiny

/-- The reset state with the cursor at `c`. -/
def at_ (c : BitVec 16) : State := { fresh with cursor := c }

/-- The state at stage `q` with the flags as given. -/
def stage (q : BitVec 3) (gate loaded : Bool) : State :=
  { fresh with seq := q, gateDone := gate, idtLoaded := loaded }

/-- The gate of the running example at its entry (part 2.2, first row). -/
def goodGate : Memory :=
  [ (0x00104108, 0x34), (0x00104109, 0x12), (0x0010410A, 0x08), (0x0010410B, 0x00),
    (0x0010410C, 0x00), (0x0010410D, 0x8E), (0x0010410E, 0x10), (0x0010410F, 0x00) ]

/-- The gate of P5: the handler address is 0x00100000. -/
def wrongGate : Memory := (0x00104108, 0x00) :: (0x00104109, 0x00) :: goodGate.drop 2

/-- The configured machine, the cursor at `c`, the port reads answering `as`. -/
def ready (c : BitVec 16) (as : List Byte) : State :=
  { fresh with
    seq := 6, gateDone := true, idtLoaded := true
    imrPri := 0xFD, imrSec := 0xFF, voffPriL := 0x20, voffSecL := 0x28
    idtr := ⟨0x07FF, 0x00104000⟩, mem := goodGate
    cursor := c, portAnswers := as, cpuIf := true }

/-- The configured machine with a key event offered. -/
def offered (as : List Byte) : State := { ready 0 as with inputs := [.keyEvent] }

/-- The outcome is a next state with the property. -/
def goesTo (o : Out) (p : State → Bool) : Bool :=
  match o with
  | .next t => p t
  | .fault _ => false
  | .refused _ => false

/-- A port write, as part 2 lists them. -/
def W (p : Port) (b : Byte) : PortAccess := ⟨.write, p, b⟩

/-- A port read. -/
def R (p : Port) (b : Byte) : PortAccess := ⟨.read, p, b⟩

/-! ### WellFormed: each check of R8 refuses an ill-formed configuration -/

theorem test_default_config_wf : Config.default.wf := by decide
theorem test_tiny_wf : tiny.wf := by decide
theorem test_wf_refuses_equal_ports : ¬ { tiny with pic2Data := 0x0060 }.PortsDistinct := by decide
theorem test_wf_refuses_equal_offsets : ¬ { tiny with voffSec := 0x20 }.OffsetsOk := by decide
theorem test_wf_refuses_reserved_offset : ¬ { tiny with voffPri := 0x18 }.OffsetsOk := by decide
theorem test_wf_refuses_reserved_offset_sec : ¬ { tiny with voffSec := 0x18 }.OffsetsOk := by decide
theorem test_wf_refuses_unaligned_offset : ¬ { tiny with voffPri := 0x21 }.OffsetsOk := by decide
theorem test_wf_refuses_unaligned_offset_sec : ¬ { tiny with voffSec := 0x29 }.OffsetsOk := by decide
theorem test_wf_refuses_high_offset : ¬ { tiny with voffSec := 0xFC }.OffsetsOk := by decide
theorem test_wf_refuses_high_offset_pri : ¬ { tiny with voffPri := 0xFC }.OffsetsOk := by decide
theorem test_wf_refuses_release_as_enter : ¬ { tiny with enterCode := 0x80 }.EnterCodeOk := by decide
theorem test_wf_refuses_no_columns : ¬ { tiny with cols := 0 }.GeometryOk := by decide
theorem test_wf_refuses_no_rows : ¬ { tiny with rows := 0 }.GeometryOk := by decide
theorem test_wf_refuses_long_buffer : ¬ { tiny with cols := 32768, rows := 1 }.GeometryOk := by decide
theorem test_wf_admits_longest_buffer : { tiny with cols := 32767, rows := 1 }.GeometryOk := by decide
theorem test_wf_refuses_table_wrap : ¬ { tiny with idtBase := 0xFFFFF801 }.RegionsInSpace := by decide
theorem test_wf_refuses_buffer_wrap : ¬ { tiny with tbBase := 0xFFFFFFF9 }.RegionsInSpace := by decide
theorem test_wf_refuses_overlap : ¬ { tiny with tbBase := 0x001047FF }.RegionsDisjoint := by decide
theorem test_every_command_wf : (Instr.gateSet 0xFFFF 0xFFFFFFFF).wf = true := by decide

/-! ### Decode: a word for every constructor (part 2.1; formats of R49 to R52) -/

theorem test_decode_gateSet : decodeTableWord 64 0x1000000800101234 = some (.gateSet 0x0008 0x00101234) := by decide
theorem test_decode_gateSet_all_ones : decodeTableWord 64 0x1000FFFFFFFFFFFF = some (.gateSet 0xFFFF 0xFFFFFFFF) := by decide
theorem test_decode_idtLoad : decodeTableWord 64 0x1100000000000000 = some .idtLoad := by decide
theorem test_decode_picIcw1 : decodeTableWord 64 0x2000000000000000 = some .picIcw1 := by decide
theorem test_decode_picIcw2 : decodeTableWord 64 0x2100000000000000 = some .picIcw2 := by decide
theorem test_decode_picIcw3 : decodeTableWord 64 0x2200000000000000 = some .picIcw3 := by decide
theorem test_decode_picIcw4 : decodeTableWord 64 0x2300000000000000 = some .picIcw4 := by decide
theorem test_decode_picMaskAll : decodeTableWord 64 0x2400000000000000 = some .picMaskAll := by decide
theorem test_decode_picUnmaskKbd : decodeTableWord 64 0x2500000000000000 = some .picUnmaskKbd := by decide
theorem test_decode_tbClear : decodeTableWord 64 0x3000000000000000 = some .tbClear := by decide
theorem test_decode_tbPutc : decodeTableWord 64 0x3100000000000048 = some (.tbPutc 0x48) := by decide
theorem test_decode_tbNewline : decodeTableWord 64 0x3200000000000000 = some .tbNewline := by decide
theorem test_decode_kbdService : decodeTableWord 64 0x4000000000000000 = some .kbdService := by decide

theorem test_illegal_words :
    decode 0x1001000800101234 = .error .nonzeroReserved ∧
    decode 0x1100000000000001 = .error .nonzeroReserved ∧
    decode 0x3100000000000148 = .error .nonzeroReserved ∧
    decode 0x1200000000000000 = .error .unknownOpcode ∧
    decode 0x2600000000000000 = .error .unknownOpcode ∧
    decode 0x0000000000000000 = .error .unknownOpcode ∧
    decode 0xFFFFFFFFFFFFFFFF = .error .unknownOpcode := ⟨rfl, rfl, rfl, rfl, rfl, rfl, rfl⟩

theorem test_encode_gateSet : encode (.gateSet 0x0010 0xDEADBEEF) = 0x10000010DEADBEEF := by decide
theorem test_word_bytes : bytesOfCommandWord 0x1000000800101234 = [0x34, 0x12, 0x10, 0x00, 0x08, 0x00, 0x00, 0x10] := by decide

/-! ### GDB (parts 2.2, 2.3) -/

theorem test_gateSet_bytes :
    goesTo (exec (.gateSet 0x0010 0xDEADBEEF) fresh) fun t =>
      t.gateDone && decide (t.mem.readBytes 0x00104108 8 = [0xEF, 0xBE, 0x10, 0x00, 0x00, 0x8E, 0xAD, 0xDE].map some)
        && decide (t.mem.length = 8) := by decide

theorem test_second_gateSet_faults :
    goesTo (exec (.gateSet 0 0) { fresh with gateDone := true, mem := goodGate }) fun t =>
      decide (t.fault = 0b0010 ∧ t.mem = goodGate) := by decide

theorem test_packed_words :
    packTableDescriptor 0x07FF 0x12345678 = (0x567807FF, 0x00001234) ∧
    unpackTableDescriptor 0x567807FF 0x00001234 = ⟨0x07FF, 0x12345678⟩ := by decide

theorem test_idtLoad :
    goesTo (exec .idtLoad (stage 0 true false)) fun t =>
      decide (t.idtr = ⟨0x07FF, 0x00104000⟩) && t.idtLoaded := by decide

/-! ### PCS (part 2.4) -/

theorem test_picIcw1 :
    goesTo (exec .picIcw1 (stage 0 false false)) fun t =>
      decide (t.seq = 1 ∧ t.portLog = [W 0x20 0x11, W 0xA0 0x11]) := by decide

theorem test_picIcw2 :
    goesTo (exec .picIcw2 (stage 1 false false)) fun t =>
      decide (t.seq = 2 ∧ t.portLog = [W 0x21 0x20, W 0xA1 0x28] ∧ t.voffPriL = 0x20 ∧ t.voffSecL = 0x28) := by decide

theorem test_picIcw3 :
    goesTo (exec .picIcw3 (stage 2 false false)) fun t =>
      decide (t.seq = 3 ∧ t.portLog = [W 0x21 0x04, W 0xA1 0x02]) := by decide

theorem test_picIcw4 :
    goesTo (exec .picIcw4 (stage 3 false false)) fun t =>
      decide (t.seq = 4 ∧ t.portLog = [W 0x21 0x01, W 0xA1 0x01]) := by decide

theorem test_picMaskAll :
    goesTo (exec .picMaskAll (stage 4 false false)) fun t =>
      decide (t.seq = 5 ∧ t.portLog = [W 0x21 0xFF, W 0xA1 0xFF] ∧ t.imrPri = 0xFF ∧ t.imrSec = 0xFF) := by decide

theorem test_picUnmaskKbd :
    goesTo (exec .picUnmaskKbd (stage 5 true true)) fun t =>
      decide (t.seq = 6 ∧ t.portLog = [W 0x21 0xFD] ∧ t.imrPri = 0xFD) := by decide

theorem test_unmask_before_table_faults :
    goesTo (exec .picUnmaskKbd (stage 5 true false)) fun t =>
      decide (t.seq = 5 ∧ t.portLog = [] ∧ t.fault = 0b0010) := by decide

/-! ### TBC (part 2.5, on the small buffer and at the default row length) -/

theorem test_tbPutc_stores_newline_code :
    goesTo (exec (.tbPutc 0x0A) (at_ 4)) fun t =>
      decide (t.cursor = 6 ∧ t.mem = [(0xB8004, 0x0A), (0xB8005, 0x07)]) := by decide

theorem test_tbPutc_at_end_faults :
    goesTo (exec (.tbPutc 0x61) (at_ 8)) fun t =>
      decide (t.cursor = 8 ∧ t.mem = [] ∧ t.fault = 0b0001) := by decide

theorem test_tbNewline_default_rows :
    [0, 2, 158, 160, 318, 3838, 3840, 3998].map (nextRowBoundary Config.default) =
      [160, 160, 160, 320, 320, 3840, 4000, 4000] := by decide

theorem test_tbNewline_at_end_faults :
    goesTo (exec .tbNewline (at_ 8)) fun t => decide (t.cursor = 8 ∧ t.fault = 0b0001) := by decide

theorem test_tbClear :
    goesTo (exec .tbClear { at_ 8 with fault := 1 }) fun t =>
      decide (t.cursor = 0 ∧ t.fault = 1 ∧
        t.mem.readBytes 0xB8000 9 = [some 0x20, some 0x07, some 0x20, some 0x07, some 0x20, some 0x07, some 0x20, some 0x07, none]) := by
  decide

theorem test_tbWrite_drops_what_does_not_fit :
    goesTo (execAll (tbWrite [0x61, 0x62, 0x63]) (at_ 4)) fun t =>
      decide (t.cursor = 8 ∧ t.fault = 0b0001 ∧ t.mem.map Prod.snd = [0x61, 0x07, 0x62, 0x07]) := by decide

/-! ### KSV (part 2.6) -/

theorem test_kbd_not_ready :
    goesTo (exec .kbdService (ready 4 [0xFE])) fun t =>
      decide (t.cursor = 4 ∧ t.mem = goodGate ∧ t.portLog = [W 0x20 0x20, R 0x64 0xFE] ∧ t.inService = false) := by decide

theorem test_kbd_release :
    goesTo (exec .kbdService (ready 4 [0x01, 0x9C])) fun t =>
      decide (t.cursor = 4 ∧ t.mem = goodGate ∧ t.portLog = [W 0x20 0x20, R 0x64 0x01, R 0x60 0x9C]) := by decide

theorem test_kbd_enter :
    goesTo (exec .kbdService (ready 4 [0x01, 0x1C])) fun t =>
      decide (t.cursor = 8 ∧ t.mem = goodGate ∧ t.fault = 0) := by decide

theorem test_kbd_press :
    goesTo (exec .kbdService (ready 4 [0x01, 0x1E])) fun t =>
      decide (t.cursor = 6 ∧ t.mem.take 2 = [(0xB8004, 0x61), (0xB8005, 0x07)]) := by decide

theorem test_kbd_at_end :
    goesTo (exec .kbdService (ready 8 [0x01, 0x1E])) fun t =>
      decide (t.cursor = 8 ∧ t.fault = 0b0001 ∧ t.portLog.length = 3 ∧ t.inService = false) := by decide

theorem test_kbd_not_admitted :
    goesTo (exec .kbdService (stage 5 true true)) fun t =>
      decide (t.fault = 0b0010 ∧ t.portLog = [] ∧ t.draws = 0) := by decide

/-! ### Delivery (part 2.7) -/

theorem test_delivery :
    goesTo (step (offered [0x01, 0x1E])) fun t =>
      decide (t.cursor = 2 ∧ t.inService = false ∧ t.fault = 0 ∧ t.inputs = []) := by decide

theorem test_delivery_bad_gate :
    goesTo (step { offered [] with mem := wrongGate }) fun t =>
      decide (t.fault = 0b1000 ∧ t.inService = true ∧ t.portLog = []) := by decide

theorem test_no_delivery_in_service :
    goesTo (step { offered [] with inService := true }) fun t =>
      decide (t.fault = 0 ∧ t.inService = true ∧ t.portLog = []) := by decide

theorem test_no_delivery_when_not_accepting :
    goesTo (step { offered [] with cpuIf := false }) fun t =>
      decide (t.fault = 0 ∧ t.inService = false ∧ t.portLog = []) := by decide

/-! ### Reset and the step (part 2.8) -/

theorem test_first_putc_after_reset :
    goesTo (step (State.reset.withFetchWord 64 0x3100000000000058)) fun t =>
      decide (t.cursor = 2 ∧ t.displayByte 0 = some 0x58 ∧ t.displayByte 1 = some 0x07 ∧ t.displayByte 2 = none) := by decide

theorem test_zero_word_is_illegal :
    goesTo (step (State.reset.withFetchWord 64 0)) fun t =>
      decide (t.fault = 0b0100 ∧ t.cursor = 0 ∧ t.seq = 0) := by decide

theorem test_boot_length : (boot tiny).length = 11 := by decide

theorem test_boot_words :
    (boot tiny).map encode =
      [ 0x3000000000000000, 0x310000000000004F, 0x310000000000004B, 0x1000000800101234,
        0x1100000000000000, 0x2000000000000000, 0x2100000000000000, 0x2200000000000000,
        0x2300000000000000, 0x2400000000000000, 0x2500000000000000 ] := by decide

/-! ### Assembler (R65 to R68) -/

theorem test_asm_gateSet :
    parseLine "GATE_SET 0x0008, 0x00101234 ; kernel".toList = some (.command (.gateSet 0x0008 0x00101234)) := by decide
theorem test_asm_decimal : parseLine "TB_PUTC 72".toList = some (.command (.tbPutc 0x48)) := by decide
theorem test_asm_quoted : parseLine "TB_PUTC 'H'".toList = some (.command (.tbPutc 0x48)) := by decide
theorem test_asm_text : parseLine "TB_WRITE \"Hi\"".toList = some (.tbWrite [0x48, 0x69]) := by decide
/-- The model's choice (log 23): no escapes, so the middle one of three single quotes is a character. -/
theorem test_asm_quote_character : parseLine "TB_PUTC '''".toList = some (.command (.tbPutc 0x27)) := by decide
/-- The model's choice (log 23): the first double quote closes the text, whatever stands before it. -/
theorem test_asm_no_escape : parseLine "TB_WRITE \"a\\\"b\"".toList = none := by decide
theorem test_asm_comment : parseLine "; nothing".toList = some .blank := by decide
theorem test_asm_too_wide : parseLine "TB_PUTC 256".toList = none := by decide
theorem test_asm_boot : parseLine "BOOT".toList = some .boot := by decide

/-! ### Witnesses of the hypotheses -/

theorem ready_inv : (ready 4 [0x01, 0x1E]).Inv :=
  ⟨by decide, by decide, by decide, by decide, by decide, by decide, by decide, by decide, by decide⟩
theorem offered_inv : (offered [0x01, 0x1C]).Inv :=
  ⟨by decide, by decide, by decide, by decide, by decide, by decide, by decide, by decide, by decide⟩

theorem witness_DecodeOfEncodeIsIdentity : (Instr.gateSet 0xFFFF 0).wf = true := by decide
theorem witness_EncodeOfDecodeIsIdentity : decode 0x3100000000000048 = .ok (.tbPutc 0x48) := rfl
theorem witness_DecoderAgreesWithOpcodeMap :
    (⟨"TB_PUTC", 0x3100000000000000, 0xFFFFFFFFFFFFFF00⟩ : OpcodeRow) ∈ opcodeTable ∧
    (⟨"TB_PUTC", 0x3100000000000000, 0xFFFFFFFFFFFFFF00⟩ : OpcodeRow).Matches 0x31000000000000FF := by decide
theorem witness_StepRunsTheDecodedCommand :
    (fresh.withFetchWord 64 0x3100000000000048).inputs = .command 0x3100000000000048 :: [] ∧
    (Instr.tbPutc 0x48).wf = true ∧ decode 0x3100000000000048 = .ok (.tbPutc 0x48) := ⟨rfl, rfl, rfl⟩
theorem witness_IllegalWordOnlySetsIllegalBit :
    (fresh.withFetchWord 64 0x3100000000000148).inputs = .command 0x3100000000000148 :: [] ∧
    ∀ r ∈ opcodeTable, (0x3100000000000148 : CommandWord) &&& r.mask ≠ r.pattern := by decide
theorem witness_IdleStepChangesNothing : fresh.inputs = [] := rfl
theorem witness_OnlyTheHostSetsCpuIf :
    { fresh with inputs := [.setCpuIf true] }.inputs = .setCpuIf true :: [] ∧
    (∃ t, step (offered [0x00]) = .next t) ∧
    ∀ on rest, (offered [0x00]).inputs ≠ .setCpuIf on :: rest :=
  ⟨rfl, ⟨_, rfl⟩, by intro on rest h; cases h⟩
theorem witness_GateSetInstallsTheGate :
    fresh.cfg.wf ∧ fresh.gateDone = false ∧ (stage 0 true false).cfg.wf ∧ (stage 0 true false).gateDone = true := by
  decide
theorem witness_GateDecomposesIntoOperands : fresh.cfg.wf ∧ fresh.gateDone = false := by decide
theorem witness_IdtLoadSetsIdtr :
    ((stage 0 true false).gateDone = true ∧ (stage 0 true false).idtLoaded = false) ∧
    ((stage 0 false false).gateDone = false ∨ (stage 0 false false).idtLoaded = true) ∧
    ((stage 0 true true).gateDone = false ∨ (stage 0 true true).idtLoaded = true) := by decide
theorem witness_PicIcw1Result : (stage 0 false false).seq = 0 ∧ (stage 1 false false).seq ≠ 0 := by decide
theorem witness_PicIcw2Result : (stage 1 false false).seq = 1 ∧ (stage 2 false false).seq ≠ 1 := by decide
theorem witness_PicIcw3Result : (stage 2 false false).seq = 2 ∧ (stage 1 false false).seq ≠ 2 := by decide
theorem witness_PicIcw4Result : (stage 3 false false).seq = 3 ∧ (stage 4 false false).seq ≠ 3 := by decide
theorem witness_PicMaskAllResult : (stage 4 false false).seq = 4 ∧ (stage 7 false false).seq ≠ 4 := by decide
theorem witness_PicUnmaskKbdResult :
    ((stage 5 true true).seq = 5 ∧ (stage 5 true true).idtLoaded = true) ∧
    ((stage 6 true true).seq ≠ 5 ∨ (stage 6 true true).idtLoaded = false) ∧
    ((stage 5 true false).seq ≠ 5 ∨ (stage 5 true false).idtLoaded = false) := by decide
theorem witness_EachPicCommandHasOneStage :
    (picConfig[0]? = some .picIcw1 ∧ (stage 0 false false).seq.toNat = 0 ∧
      (0 = 5 → (stage 0 false false).idtLoaded = true)) ∧
    (picConfig[5]? = some .picUnmaskKbd ∧ (stage 5 true true).seq.toNat = 5 ∧
      (5 = 5 → (stage 5 true true).idtLoaded = true)) ∧
    (picConfig[4]? = some .picMaskAll ∧ (stage 6 true true).seq.toNat ≠ 4) ∧
    (picConfig[5]? = some .picUnmaskKbd ∧ 5 = 5 ∧ (stage 5 true false).idtLoaded = false) := by decide
theorem witness_PicConfigAppendsElevenWrites :
    (stage 0 true true).seq = 0 ∧ (stage 0 true true).idtLoaded = true := by decide
theorem witness_ConfiguredShadowsNeverChange :
    (offered [0x01, 0x1C]).Inv ∧ (offered [0x01, 0x1C]).seq = sDone ∧
    ∃ t, step (offered [0x01, 0x1C]) = .next t := ⟨offered_inv, rfl, _, rfl⟩
theorem witness_TbClearFillsTheBuffer :
    fresh.cfg.wf ∧ 3 < fresh.cfg.rows * fresh.cfg.cols ∧ fresh.cfg.tbAddr fresh.cfg.len ≤ 0x000B8008 := by decide
theorem witness_SecondTbClearChangesNothing : ∃ t, exec .tbClear fresh = .next t := ⟨_, rfl⟩
theorem witness_TbPutcStoresTheCell :
    ((at_ 6).cfg.wf ∧ (at_ 6).cursor.toNat + 2 ≤ (at_ 6).cfg.len) ∧
    ((at_ 7).cfg.wf ∧ (at_ 7).cfg.len < (at_ 7).cursor.toNat + 2) ∧
    ((at_ 8).cfg.wf ∧ (at_ 8).cfg.len < (at_ 8).cursor.toNat + 2) := by decide
theorem witness_TbNewlineFollowsTheFormula :
    ((at_ 7).cfg.wf ∧ 8 = (at_ 7).cursor.toNat + (2 * (at_ 7).cfg.cols - (at_ 7).cursor.toNat % (2 * (at_ 7).cfg.cols)) ∧
      8 ≤ (at_ 7).cfg.len) ∧
    ((at_ 4).CursorOk ∧ 8 = (at_ 4).cursor.toNat + (2 * (at_ 4).cfg.cols - (at_ 4).cursor.toNat % (2 * (at_ 4).cfg.cols)) ∧
      8 ≤ (at_ 4).cfg.len) ∧
    ((at_ 8).CursorOk ∧ 12 = (at_ 8).cursor.toNat + (2 * (at_ 8).cfg.cols - (at_ 8).cursor.toNat % (2 * (at_ 8).cfg.cols)) ∧
      (at_ 8).cfg.len < 12) := by decide
theorem witness_NewlineReachesTheNextRow :
    (at_ 4).cfg.wf ∧ (at_ 4).cursor.toNat < (at_ 4).cfg.len ∧ (8 % (at_ 4).cfg.rowBytes = 0 ∧ (at_ 4).cursor.toNat < 8) := by
  decide
theorem witness_BoundsFaultExactlyAtTheEnd :
    ((at_ 8).cfg.wf ∧ (at_ 8).CursorOk ∧ (at_ 8).cursor.toNat = (at_ 8).cfg.len) ∧
    ((at_ 6).cfg.wf ∧ (at_ 6).CursorOk ∧ (at_ 6).cursor.toNat ≠ (at_ 6).cfg.len) ∧
    ∃ t, exec .tbClear (at_ 6) = .next t := ⟨by decide, by decide, _, rfl⟩
theorem witness_TbWriteInterleavesTheText :
    ((at_ 4).cfg.wf ∧ (at_ 4).CursorOk ∧ (at_ 4).cursor.toNat + 2 * [0x61, 0x62].length ≤ (at_ 4).cfg.len) ∧
    (at_ 4).cfg.len < (at_ 4).cursor.toNat + 2 * [0x61, 0x62, 0x63].length := by decide
theorem witness_OnlyClearDecreasesTheCursor :
    (offered [0x01, 0x1C]).cfg.wf ∧ (∃ t, step (offered [0x01, 0x1C]) = .next t) ∧
    ∀ w rest, (offered [0x01, 0x1C]).inputs = .command w :: rest → decode w ≠ .ok .tbClear :=
  ⟨by decide, ⟨_, rfl⟩, by intro w rest h; cases h⟩
theorem witness_KbdServiceOutcomes_notReady :
    (ready 4 [0xFE]).cfg.wf ∧ (ready 4 [0xFE]).Deliverable ∧ (ready 4 [0xFE]).answerAt 0 = 0xFE ∧
    (0xFE : Byte).getLsbD 0 = false := by decide
theorem witness_KbdServiceOutcomes_release :
    (ready 8 [0x01, 0x80]).cfg.wf ∧ (ready 8 [0x01, 0x80]).Deliverable ∧ (ready 8 [0x01, 0x80]).answerAt 0 = 0x01 ∧
    (ready 8 [0x01, 0x80]).answerAt 1 = 0x80 ∧ (0x01 : Byte).getLsbD 0 = true ∧ (0x80 : Byte).getLsbD 7 = true := by decide
theorem witness_KbdServiceOutcomes_enter :
    (ready 7 [0x01, 0x1C]).cfg.wf ∧ (ready 7 [0x01, 0x1C]).Deliverable ∧ (ready 7 [0x01, 0x1C]).answerAt 0 = 0x01 ∧
    (ready 7 [0x01, 0x1C]).answerAt 1 = (ready 7 [0x01, 0x1C]).cfg.enterCode ∧
    (ready 7 [0x01, 0x1C]).cfg.enterCode.getLsbD 7 = false ∧
    (ready 7 [0x01, 0x1C]).cursor.toNat < (ready 7 [0x01, 0x1C]).cfg.len := by decide
theorem witness_KbdServiceOutcomes_press :
    (ready 6 [0x01, 0x7F]).cfg.wf ∧ (ready 6 [0x01, 0x7F]).Deliverable ∧ (ready 6 [0x01, 0x7F]).answerAt 0 = 0x01 ∧
    (ready 6 [0x01, 0x7F]).answerAt 1 = 0x7F ∧ (0x7F : Byte).toNat < 128 ∧
    (0x7F : Byte) ≠ (ready 6 [0x01, 0x7F]).cfg.enterCode ∧
    (ready 6 [0x01, 0x7F]).cursor.toNat + 2 ≤ (ready 6 [0x01, 0x7F]).cfg.len := by decide
theorem witness_KbdServiceRefusedUnlessDeliverable :
    (¬ (stage 5 true true).Deliverable ∧ ¬ (stage 6 false true).Deliverable ∧ ¬ (stage 6 true false).Deliverable) ∧
    ((ready 8 [0x00]).cfg.wf ∧ (ready 8 [0x00]).Deliverable) ∧ (ready 4 [0x01, 0x1E]).Inv :=
  ⟨by decide, by decide, ready_inv⟩
theorem witness_KbdServiceAtTheEndLosesTheKey :
    ((ready 8 [0x01, 0x1E]).cfg.wf ∧ (ready 8 [0x01, 0x1E]).Deliverable ∧
      (ready 8 [0x01, 0x1E]).cursor.toNat = (ready 8 [0x01, 0x1E]).cfg.len ∧
      (ready 8 [0x01, 0x1E]).answerAt 0 = 0x01 ∧ (ready 8 [0x01, 0x1E]).answerAt 1 = 0x1E) ∧
    (ready 8 [0x01, 0x1C]).answerAt 1 = 0x1C ∧
    (0x01 : Byte).getLsbD 0 = true ∧ (0x1E : Byte).getLsbD 7 = false ∧ (0x1C : Byte).getLsbD 7 = false := by decide
theorem witness_AcknowledgmentComesFirst :
    (ready 8 [0x01, 0x1E]).cfg.wf ∧ (ready 8 [0x01, 0x1E]).Deliverable := by decide
theorem witness_ReleaseAndEnterIgnoreTheTable :
    ((∃ t, exec .kbdService (ready 4 [0x01, 0x9C]) = .next t) ∧ ((ready 4 [0x01, 0x9C]).answerAt 1).getLsbD 7 = true) ∧
    ((∃ t, exec .kbdService (ready 4 [0x01, 0x1C]) = .next t) ∧
      ∀ (j : Nat) (h : j < 128), j ≠ (ready 4 [0x01, 0x1C]).cfg.enterCode.toNat →
        ((ready 4 [0x01, 0x1C]).cfg.scanTab.set 0x1C 0x41)[j] = (ready 4 [0x01, 0x1C]).cfg.scanTab[j]) := by
  refine ⟨⟨⟨_, rfl⟩, by decide⟩, ⟨_, rfl⟩, ?_⟩
  intro j h hj
  exact Vector.getElem_set_ne (by decide) h (fun e => hj e.symm)
theorem witness_EnabledKeyEventRunsTheService :
    (offered [0x01, 0x1C]).inputs = .keyEvent :: [] ∧ (offered [0x01, 0x1C]).seq = 6 ∧
    (offered [0x01, 0x1C]).inService = false ∧ (offered [0x01, 0x1C]).cpuIf = true ∧
    (offered [0x01, 0x1C]).DeliveryLeadsToService := by decide
theorem witness_KeyEventWithoutDeliveryDoesNothing :
    { stage 5 true true with inputs := [.keyEvent] }.inputs = .keyEvent :: [] ∧
    ((stage 5 true true).seq ≠ 6 ∧ { offered [] with inService := true }.inService = true ∧
      { offered [] with cpuIf := false }.cpuIf = false) := by decide
theorem witness_BadGateRaisesVectorFault :
    (offered []).inputs = .keyEvent :: [] ∧ (offered []).seq = 6 ∧ (offered []).inService = false ∧
    (offered []).cpuIf = true ∧
    wrongGate.readBytes (offered []).cfg.kbdEntry 8 ≠
      (littleEndian 8 (gateDescriptor tiny.gateAttr tiny.kernelCs tiny.isrEntry)).map some := by decide
theorem witness_BadGateRaisesVectorFault_idtr :
    { offered [] with idtr := ⟨0x07FE, 0x00104000⟩ }.idtr.limit ≠ 0x07FF ∧
    { offered [] with idtr := ⟨0x07FF, 0x00104008⟩ }.idtr.base ≠ tiny.idtBase := by decide
theorem witness_ConfiguredKeyIsRoutedToItsGate :
    (ready 4 [0x01, 0x1E]).Inv ∧ (ready 4 [0x01, 0x1E]).seq = sDone := ⟨ready_inv, rfl⟩
theorem witness_DeliveredServiceIsAcknowledged :
    (offered [0x01, 0x1C]).Inv ∧ (offered [0x01, 0x1C]).inputs = .keyEvent :: [] ∧
    (offered [0x01, 0x1C]).DeliveryEnabled ∧ (offered [0x01, 0x1C]).DeliveryLeadsToService :=
  ⟨offered_inv, rfl, by decide, by decide⟩
theorem witness_FaultBitsAreSticky : ∃ t, step (offered [0x01, 0x1C]) = .next t := ⟨_, rfl⟩
theorem witness_CommandCompletesOrOnlyRaises : ∃ t, exec (.tbPutc 0x41) (at_ 8) = .next t := ⟨_, rfl⟩
theorem witness_OrderFaultExactlyWhenNotAdmitted :
    OrderFaults .picIcw2 (stage 0 false false) ∧ ¬ OrderFaults .picIcw1 (stage 0 false false) ∧
    ∃ t, exec .picIcw1 (stage 0 false false) = .next t :=
  ⟨by unfold OrderFaults; decide, by unfold OrderFaults; decide, _, rfl⟩
theorem witness_InvariantHoldsAtReset : tiny.wf := by decide
theorem witness_StepKeepsTheInvariant :
    (offered [0x01, 0x1C]).Inv ∧ ∃ t, step (offered [0x01, 0x1C]) = .next t := ⟨offered_inv, _, rfl⟩
theorem witness_EveryStepCompletes : (offered [0x01, 0x1C]).cfg.wf := by decide
theorem witness_EveryRunEndsInTheInvariant : tiny.wf := by decide
theorem witness_SeqOnlyMovesForward : ∃ t, step (fresh.withFetchWord 64 0x2000000000000000) = .next t := ⟨_, rfl⟩
theorem witness_FlagsAndConfigurationAreKept :
    (∃ t, step (offered [0x01, 0x1C]) = .next t) ∧ (offered [0x01, 0x1C]).gateDone = true ∧
    (offered [0x01, 0x1C]).idtLoaded = true := ⟨⟨_, rfl⟩, rfl, rfl⟩
theorem witness_StepWritesOnlyBufferAndGate :
    (offered [0x01, 0x1E]).cfg.wf ∧ (∃ t, step (offered [0x01, 0x1E]) = .next t) ∧
    ¬ InTb (offered [0x01, 0x1E]).cfg 0x000B8008 ∧ ¬ InKbdGate (offered [0x01, 0x1E]).cfg 0x00104110 :=
  ⟨by decide, ⟨_, rfl⟩, by decide, by decide⟩
theorem witness_GateIsWrittenOnce :
    (offered [0x01, 0x1E]).cfg.wf ∧ (offered [0x01, 0x1E]).gateDone = true ∧
    (∃ t, step (offered [0x01, 0x1E]) = .next t) ∧ InKbdGate (offered [0x01, 0x1E]).cfg 0x0010410F :=
  ⟨by decide, rfl, ⟨_, rfl⟩, by decide⟩
theorem witness_CommandsNeverReadMemory : ∃ t, exec (.tbPutc 0x41) fresh = .next t := ⟨_, rfl⟩
/-- A store that copies an old byte is none that two memories share. -/
theorem test_storedAlike_refuses_a_copy :
    ¬ Memory.StoredAlike [(0, 1)] [(0, 1), (1, 1)] [(0, 2)] [(0, 2), (1, 2)] :=
  fun h => absurd (h 1) (by decide)
/-- One step with both reads, one write, and a configuration of R8. -/
theorem witness_PortLogOnlyGrows :
    (∃ t, step (offered [0x01, 0x1E]) = .next t) ∧ (offered [0x01, 0x1E]).cfg.wf ∧
    goesTo (step (offered [0x01, 0x1E])) (fun t =>
      decide (t.portLog = [W 0x20 0x20, R 0x64 0x01, R 0x60 0x1E])) = true :=
  ⟨⟨_, rfl⟩, by decide, by decide⟩
theorem witness_BootReachesTheConfiguredState : tiny.wf ∧ 2 * tiny.banner.length ≤ tiny.len := by decide

end Sys2Proof.Tests
end

section
/-! PROOF. What a command does to `FAULT` (R11, R109): the operations the commands share either
complete with `FAULT` as it was or raise one cause and do nothing else, and every command inherits
that from the operation it ends in. -/

namespace Sys2Proof.Machine

variable {s t : State}

/-- R11's dichotomy: the command completed, or it raised one cause and changed nothing else. -/
abbrev State.CompletesOrRaises (s t : State) : Prop :=
  t.fault = s.fault ∨ ∃ c, t = s.raise c

/-- `F_BOUNDS` is bit 0 of `FAULT` (R105). -/
theorem Cause.bit_bounds : Cause.bounds.bit = 0b0001 := rfl

/-! ### What the commands of the GDB can do -/

/-- Everything `GATE_SET` can do when it answers a next state (R70). -/
theorem execGateSet_eq_next {sel : Half} {haddr : Addr} (h : execGateSet sel haddr s = .next t) :
    (s.gateDone = true ∧ t = s.raise .order) ∨
    (s.gateDone = false ∧ t = { s with
      mem := s.mem.writeBytes s.cfg.kbdEntry (gateBytes s.cfg sel haddr)
      gateDone := true }) := by
  unfold execGateSet at h
  split at h
  · next hd => cases h; exact .inl ⟨hd, rfl⟩
  · next hd =>
    obtain ⟨u, hu, hk⟩ := onNext_eq_next h
    obtain ⟨-, rfl⟩ := storeBytes_eq_next hu
    cases hk
    exact .inr ⟨Bool.eq_false_of_not_eq_true hd, rfl⟩

/-- Everything `IDT_LOAD` does: it always answers a next state (R72). -/
theorem execIdtLoad_eq (s : State) :
    execIdtLoad s = .next (if s.gateDone = false ∨ s.idtLoaded = true then s.raise .order
      else { s.tableLoad (packTableDescriptor Config.idtLimit s.cfg.idtBase) with
        idtLoaded := true }) := by
  unfold execIdtLoad
  split <;> rfl

/-! ### The shared operations -/

/-- A staged command whose body meets the dichotomy meets it in every stage (R77). -/
theorem inStage_completesOrRaises {req : BitVec 3} {body : Out} (h : s.inStage req body = .next t)
    (hbody : body = .next t → s.CompletesOrRaises t) : s.CompletesOrRaises t := by
  rcases inStage_eq_next h with ⟨-, hb⟩ | ⟨-, rfl⟩
  · exact hbody hb
  · exact .inr ⟨.order, rfl⟩

/-- A staged command that writes ports and registers other than `FAULT` meets the dichotomy. -/
theorem inStage_next_completesOrRaises {req : BitVec 3} {u : State}
    (h : s.inStage req (.next u) = .next t) (hu : u.fault = s.fault) : s.CompletesOrRaises t :=
  inStage_completesOrRaises h fun hb => by cases hb; exact .inl hu

/-- A character is stored, or the end of the buffer raises `F_BOUNDS` (R91). -/
theorem putCell_completes_or_bounds {ch : Byte} (h : s.putCell ch = .next t) :
    t.fault = s.fault ∨ t = s.raise .bounds := by
  rcases putCell_eq_next h with ⟨-, rfl⟩ | ⟨-, rfl⟩
  · exact .inr rfl
  · exact .inl rfl

/-- The row advances, or the end of the buffer raises `F_BOUNDS` (R93). -/
theorem advanceRow_completes_or_bounds (h : s.advanceRow = .next t) :
    t.fault = s.fault ∨ t = s.raise .bounds := by
  rw [advanceRow_eq] at h
  cases h
  split
  · exact .inr rfl
  · exact .inl rfl

/-- A key dispatch raises at most the `F_BOUNDS` of the text operation it performs (R100). -/
theorem dispatchKey_completes_or_bounds {code : Byte} (h : s.dispatchKey code = .next t) :
    t.fault = s.fault ∨ t = s.raise .bounds := by
  rcases dispatchKey_cases s code with ⟨-, release⟩ | ⟨-, -, enter⟩ | ⟨-, -, press⟩
  · rw [release] at h; cases h; exact .inl rfl
  · rw [enter] at h; exact advanceRow_completes_or_bounds h
  · rw [press] at h; exact putCell_completes_or_bounds h

/-- The bounds fault of a keyboard service comes after its port reads, so `PORTLOG` has grown; the
cursor and the memory are as before (R100, R11). -/
theorem serveKeyboard_completes_or_bounds (h : s.serveKeyboard = .next t) :
    t.fault = s.fault ∨
    (t.fault = s.fault ||| 0b0001 ∧ t.cursor = s.cursor ∧ t.mem = s.mem) := by
  by_cases hr : dataReady (s.answerAt 0)
  · rw [serveKeyboard_of_ready hr] at h
    rcases dispatchKey_completes_or_bounds h with hf | rfl
    · exact .inl hf
    · exact .inr ⟨by simp [Cause.bit_bounds], rfl, rfl⟩
  · rw [serveKeyboard_of_notReady hr] at h
    cases h
    exact .inl rfl

/-! ### The commands -/

/-- Every command but `KBD_SERVICE` meets R11's dichotomy without exception. -/
theorem exec_completesOrRaises {i : Instr} (hi : i ≠ .kbdService) (h : exec i s = .next t) :
    s.CompletesOrRaises t := by
  cases i with
  | gateSet sel haddr =>
    rcases execGateSet_eq_next h with ⟨-, rfl⟩ | ⟨-, rfl⟩
    · exact .inr ⟨.order, rfl⟩
    · exact .inl rfl
  | idtLoad =>
    simp only [exec, execIdtLoad_eq] at h
    cases h
    split
    · exact .inr ⟨.order, rfl⟩
    · exact .inl rfl
  | picIcw1 => exact inStage_next_completesOrRaises h rfl
  | picIcw2 => exact inStage_next_completesOrRaises h rfl
  | picIcw3 => exact inStage_next_completesOrRaises h rfl
  | picIcw4 => exact inStage_next_completesOrRaises h rfl
  | picMaskAll => exact inStage_next_completesOrRaises h rfl
  | picUnmaskKbd =>
    refine inStage_completesOrRaises h fun hb => ?_
    split at hb <;> cases hb
    · exact .inr ⟨.order, rfl⟩
    · exact .inl rfl
  | tbClear => rw [clearBuffer_eq_next h]; exact .inl rfl
  | tbPutc ch => exact (putCell_completes_or_bounds h).imp_right fun e => ⟨.bounds, e⟩
  | tbNewline => exact (advanceRow_completes_or_bounds h).imp_right fun e => ⟨.bounds, e⟩
  | kbdService => exact absurd rfl hi

/-- `KBD_SERVICE` is refused with `F_ORDER` alone when it is not deliverable; otherwise it completes, or
sets `F_BOUNDS` with cursor and memory unchanged (R98, R100). -/
theorem execKbdService_completes_raises_or_bounds (h : execKbdService s = .next t) :
    s.CompletesOrRaises t ∨
    (s.Deliverable ∧ t.fault = s.fault ||| 0b0001 ∧ t.cursor = s.cursor ∧ t.mem = s.mem) := by
  unfold execKbdService at h
  split at h
  · next hd =>
    rcases serveKeyboard_completes_or_bounds h with hf | hb
    · exact .inl (.inl hf)
    · exact .inr ⟨hd, hb⟩
  · cases h
    exact .inl (.inr ⟨.order, rfl⟩)

/-- Settles O43: `KBD_SERVICE` is the one command whose bounds check comes after its port accesses, so
the commands split into it and the rest. -/
theorem commandCompletesOrOnlyRaises : Obligations.CommandCompletesOrOnlyRaises := by
  intro s t i h
  by_cases hi : i = .kbdService
  · subst hi
    rcases execKbdService_completes_raises_or_bounds h with (hf | hc) | hb
    · exact .inl hf
    · exact .inr (.inl hc)
    · exact .inr (.inr ⟨rfl, hb⟩)
  · rcases exec_completesOrRaises hi h with hf | hc
    · exact .inl hf
    · exact .inr (.inl hc)

end Sys2Proof.Machine
end

section
/-! PROOF. What any step may do to the block's registers, its memory and `PORTLOG`, said once as a
relation between the state before and after (`State.Guarantee`). Every operation is shown to keep to
it; the rules on `FAULT`, `SEQ`, `STATUS`, the keyboard entry and `PORTLOG` are read off it. -/

namespace Sys2Proof.Machine

variable {s t u : State} {c : Config}

/-! ### The accesses a step may log -/

/-- An access of R122's table: a read of a keyboard port, or a listed write to a controller port. -/
def PortAccess.Listed (c : Config) (a : PortAccess) : Prop :=
  (a.dir = .read ∧ (a.port = c.kbdStatus ∨ a.port = c.kbdData)) ∨
  (a.dir = .write ∧ (a.port, a.byte) ∈ deviceWrites c)

/-- `PORTLOG` went from `old` to `new` by appending accesses of R122's table (R28). -/
def LogGrows (c : Config) (old new : List PortAccess) : Prop :=
  ∃ acc, new = old ++ acc ∧ ∀ a ∈ acc, a.Listed c

theorem LogGrows.refl (c : Config) (log : List PortAccess) : LogGrows c log log :=
  ⟨[], by simp, by simp⟩

theorem LogGrows.append {old : List PortAccess} {a : PortAccess} (h : a.Listed c) :
    LogGrows c old (old ++ [a]) := ⟨[a], rfl, by simpa using h⟩

theorem LogGrows.trans {l₀ l₁ l₂ : List PortAccess} (h₁ : LogGrows c l₀ l₁)
    (h₂ : LogGrows c l₁ l₂) : LogGrows c l₀ l₂ := by
  obtain ⟨acc₁, rfl, listed₁⟩ := h₁
  obtain ⟨acc₂, rfl, listed₂⟩ := h₂
  refine ⟨acc₁ ++ acc₂, List.append_assoc .., fun a ha => ?_⟩
  exact (List.mem_append.mp ha).elim (listed₁ a) (listed₂ a)

theorem logGrows_portWrite {p : Port} {b : Byte} (h : (p, b) ∈ deviceWrites s.cfg) :
    LogGrows s.cfg s.portLog (s.portWrite p b).portLog := .append (.inr ⟨rfl, h⟩)

theorem logGrows_afterPortRead {p : Port} (h : p = s.cfg.kbdStatus ∨ p = s.cfg.kbdData) :
    LogGrows s.cfg s.portLog (s.afterPortRead p).portLog := .append (.inl ⟨rfl, h⟩)

theorem logGrows_writeBothControllers {p q : Port} {b₁ b₂ : Byte}
    (h₁ : (p, b₁) ∈ deviceWrites s.cfg) (h₂ : (q, b₂) ∈ deviceWrites s.cfg) :
    LogGrows s.cfg s.portLog (s.writeBothControllers p q b₁ b₂).portLog :=
  (logGrows_portWrite h₁).trans (logGrows_portWrite (s := s.portWrite p b₁) h₂)

/-- The writes of R122's table go to the controllers' four ports. -/
theorem controllerPort_of_mem_deviceWrites {p : Port} {b : Byte} (h : (p, b) ∈ deviceWrites c) :
    p ∈ [c.pic1Cmd, c.pic1Data, c.pic2Cmd, c.pic2Data] := by
  simp only [deviceWrites, List.mem_cons, Prod.mk.injEq, List.not_mem_nil, or_false] at h ⊢
  tauto

/-- No controller port is a keyboard port (R8). -/
theorem controllerPort_ne_keyboardPort (h : c.wf) {p : Port}
    (hp : p ∈ [c.pic1Cmd, c.pic1Data, c.pic2Cmd, c.pic2Data]) :
    p ≠ c.kbdStatus ∧ p ≠ c.kbdData := by
  have distinct : c.PortsDistinct := h.1
  simp only [Config.PortsDistinct, Config.ports, List.pairwise_cons, List.mem_cons,
    List.not_mem_nil, or_false] at distinct hp
  grind

theorem PortAccess.Listed.port_mem {a : PortAccess} (h : a.Listed c) : a.port ∈ c.ports := by
  rcases h with ⟨-, hp⟩ | ⟨-, hw⟩
  · rcases hp with hp | hp <;> simp [Config.ports, hp]
  · exact List.mem_append_left [c.kbdData, c.kbdStatus] (controllerPort_of_mem_deviceWrites hw)

theorem PortAccess.Listed.port_of_read {a : PortAccess} (h : a.Listed c) (hd : a.dir = .read) :
    a.port = c.kbdStatus ∨ a.port = c.kbdData := by
  rcases h with ⟨-, hp⟩ | ⟨hw, -⟩
  · exact hp
  · simp [hd] at hw

theorem PortAccess.Listed.mem_of_write {a : PortAccess} (h : a.Listed c) (hd : a.dir = .write) :
    (a.port, a.byte) ∈ deviceWrites c := by
  rcases h with ⟨hr, -⟩ | ⟨-, hp⟩
  · simp [hd] at hr
  · exact hp

/-! ### The guarantee of a step -/

/-- What every step keeps to. A field that is not given says that the step leaves that part of the state
as it was, so a case names what it changes and nothing else. -/
structure State.Guarantee (s t : State) : Prop where
  /-- The configuration is fixed (R29). -/
  cfg : t.cfg = s.cfg := by rfl
  /-- Bits of `FAULT` are only added (R18). -/
  fault : ∃ added, t.fault = s.fault ||| added := by exact ⟨0, BitVec.or_zero.symm⟩
  /-- `SEQ` stays or moves on by one stage (R16). -/
  seq : t.seq = s.seq ∨ (t.seq.toNat = s.seq.toNat + 1 ∧ s.seq.toNat < 6) := by exact .inl rfl
  /-- `GATE_DONE` is not cleared (R19). -/
  gateDone : s.gateDone = true → t.gateDone = true := by exact id
  /-- `IDT_LOADED` is not cleared (R19). -/
  idtLoaded : s.idtLoaded = true → t.idtLoaded = true := by exact id
  /-- Only the text buffer is written (R92), and, before `GATE_DONE`, the keyboard entry (R70, R75). -/
  mem : ∀ a, ¬ InTb s.cfg a → (InKbdGate s.cfg a → s.gateDone = true) →
    t.mem.read a = s.mem.read a := by exact fun _ _ _ => rfl
  /-- `PORTLOG` grows by accesses of R122's table (R28). -/
  log : LogGrows s.cfg s.portLog t.portLog := by exact .refl _ _

/-- Two parts of one step compose when the first leaves `SEQ` alone. -/
theorem State.Guarantee.trans (h₁ : s.Guarantee u) (hseq : u.seq = s.seq) (h₂ : u.Guarantee t) :
    s.Guarantee t where
  cfg := h₂.cfg.trans h₁.cfg
  fault := by
    obtain ⟨f₁, e₁⟩ := h₁.fault
    obtain ⟨f₂, e₂⟩ := h₂.fault
    exact ⟨f₁ ||| f₂, by rw [e₂, e₁, BitVec.or_assoc]⟩
  seq := hseq ▸ h₂.seq
  gateDone := h₂.gateDone ∘ h₁.gateDone
  idtLoaded := h₂.idtLoaded ∘ h₁.idtLoaded
  mem a hTb hGate := by
    rw [h₂.mem a (h₁.cfg ▸ hTb) (h₁.cfg ▸ h₁.gateDone ∘ hGate), h₁.mem a hTb hGate]
  log := h₁.log.trans (h₁.cfg ▸ h₂.log)

theorem raise_guarantee (s : State) (c : Cause) : s.Guarantee (s.raise c) where
  fault := ⟨c.bit, rfl⟩

/-! ### The shared operations -/

/-- A run stored inside the text buffer leaves the rest of the memory alone. -/
theorem read_writeBytes_of_not_inTb {o a : Nat} {bs : List Byte} (m : Memory)
    (hfit : o + bs.length ≤ c.len) (ha : ¬ InTb c a) :
    (m.writeBytes (c.tbAddr o) bs).read a = m.read a := by
  refine Memory.read_writeBytes_outside _ _ _ _ ?_
  simp only [InTb, Config.tbAddr] at ha ⊢
  omega

theorem putCell_guarantee {ch : Byte} (h : s.putCell ch = .next t) : s.Guarantee t := by
  rcases putCell_eq_next h with ⟨-, rfl⟩ | ⟨room, rfl⟩
  · exact raise_guarantee s .bounds
  · exact { mem := fun a hTb _ => read_writeBytes_of_not_inTb s.mem room hTb }

theorem advanceRow_guarantee (h : s.advanceRow = .next t) : s.Guarantee t := by
  rw [advanceRow_eq] at h
  cases h
  split
  · exact raise_guarantee s .bounds
  · exact {}

theorem clearBuffer_guarantee (h : s.clearBuffer = .next t) : s.Guarantee t := by
  rw [clearBuffer_eq_next h]
  exact { mem := fun a hTb _ => read_writeBytes_of_not_inTb s.mem (by simp) hTb }

/-- A refused stage raises `F_ORDER`, so a staged command keeps to what its body keeps to (R77). -/
theorem inStage_guarantee {req : BitVec 3} {body : Out} (h : s.inStage req body = .next t)
    (hbody : s.seq = req → body = .next t → s.Guarantee t) : s.Guarantee t := by
  rcases inStage_eq_next h with ⟨stage, hb⟩ | ⟨-, rfl⟩
  · exact hbody stage hb
  · exact raise_guarantee s .order

theorem endOfInterrupt_guarantee (s : State) : s.Guarantee s.endOfInterrupt where
  log := logGrows_portWrite (by simp [deviceWrites])

theorem afterPortRead_guarantee {p : Port} (h : p = s.cfg.kbdStatus ∨ p = s.cfg.kbdData) :
    s.Guarantee (s.afterPortRead p) where
  log := logGrows_afterPortRead h

theorem dispatchKey_guarantee {code : Byte} (h : s.dispatchKey code = .next t) :
    s.Guarantee t := by
  rcases dispatchKey_cases s code with ⟨-, release⟩ | ⟨-, -, enter⟩ | ⟨-, -, press⟩
  · rw [release] at h; cases h; exact {}
  · rw [enter] at h; exact advanceRow_guarantee h
  · rw [press] at h; exact putCell_guarantee h

theorem serveKeyboard_guarantee (h : s.serveKeyboard = .next t) : s.Guarantee t := by
  have status : s.Guarantee (s.afterPortRead s.cfg.kbdStatus) := afterPortRead_guarantee (.inl rfl)
  by_cases ready : dataReady (s.answerAt 0)
  · rw [serveKeyboard_of_ready ready] at h
    have data := afterPortRead_guarantee (s := s.afterPortRead s.cfg.kbdStatus) (.inr rfl)
    exact status.trans rfl (data.trans rfl (dispatchKey_guarantee h))
  · rw [serveKeyboard_of_notReady ready] at h
    cases h
    exact status

/-! ### The commands -/

/-- The gate is written only while `GATE_DONE = 0`, so a byte outside both regions is kept (R70). -/
theorem execGateSet_guarantee {sel : Half} {haddr : Addr} (h : execGateSet sel haddr s = .next t) :
    s.Guarantee t := by
  rcases execGateSet_eq_next h with ⟨-, rfl⟩ | ⟨notDone, rfl⟩
  · exact raise_guarantee s .order
  · refine { gateDone := fun _ => rfl, mem := fun a _ hGate => ?_ }
    have outside : ¬ InKbdGate s.cfg a := fun hin => by simp [hGate hin] at notDone
    refine Memory.read_writeBytes_outside _ _ _ _ ?_
    rw [length_gateBytes]
    omega

theorem execIdtLoad_guarantee (h : execIdtLoad s = .next t) : s.Guarantee t := by
  rw [execIdtLoad_eq] at h
  cases h
  split
  · exact raise_guarantee s .order
  · exact { idtLoaded := fun _ => rfl }

/-- The stage a `PIC_*` command writes is the one after the stage it requires (R77). -/
theorem seq_next_of_stage {req next : BitVec 3} (h : s.seq = req)
    (hnext : next.toNat = req.toNat + 1) (hreq : req.toNat < 6) :
    next = s.seq ∨ (next.toNat = s.seq.toNat + 1 ∧ s.seq.toNat < 6) :=
  .inr (h ▸ ⟨hnext, hreq⟩)

/-- The first five `PIC_*` commands (R78 to R82): a listed write to each controller and the next stage;
apart from `SEQ` and `PORTLOG` they change nothing that the guarantee restricts. -/
theorem inStage_writes_guarantee {req : BitVec 3} {p q : Port} {b₁ b₂ : Byte}
    (h : s.inStage req (.next u) = .next t)
    (rest : s.Guarantee { u with seq := s.seq, portLog := s.portLog })
    (hnext : u.seq.toNat = req.toNat + 1) (hreq : req.toNat < 6)
    (hlog : u.portLog = (s.writeBothControllers p q b₁ b₂).portLog)
    (h₁ : (p, b₁) ∈ deviceWrites s.cfg) (h₂ : (q, b₂) ∈ deviceWrites s.cfg) : s.Guarantee t :=
  inStage_guarantee h fun stage hb => by
    cases hb
    exact { rest with
      seq := seq_next_of_stage stage hnext hreq
      log := hlog ▸ logGrows_writeBothControllers h₁ h₂ }

theorem maskKbdOnlyByte_eq : maskKbdOnlyByte = 0xFD := by decide

theorem execPicUnmaskKbd_guarantee (h : execPicUnmaskKbd s = .next t) : s.Guarantee t := by
  refine inStage_guarantee h fun stage hb => ?_
  split at hb <;> cases hb
  · exact raise_guarantee s .order
  · exact {
      seq := seq_next_of_stage stage rfl (by decide)
      log := logGrows_portWrite (by simp [deviceWrites, maskKbdOnlyByte_eq]) }

theorem execKbdService_guarantee (h : execKbdService s = .next t) : s.Guarantee t := by
  unfold execKbdService at h
  split at h
  · exact (endOfInterrupt_guarantee s).trans rfl (serveKeyboard_guarantee h)
  · cases h
    exact raise_guarantee s .order

theorem exec_guarantee {i : Instr} (h : exec i s = .next t) : s.Guarantee t := by
  cases i with
  | gateSet sel haddr => exact execGateSet_guarantee h
  | idtLoad => exact execIdtLoad_guarantee h
  | picIcw1 =>
    exact inStage_writes_guarantee h {} rfl (by decide) rfl (by simp [deviceWrites])
      (by simp [deviceWrites])
  | picIcw2 =>
    exact inStage_writes_guarantee h {} rfl (by decide) rfl (by simp [deviceWrites])
      (by simp [deviceWrites])
  | picIcw3 =>
    exact inStage_writes_guarantee h {} rfl (by decide) rfl (by simp [deviceWrites])
      (by simp [deviceWrites])
  | picIcw4 =>
    exact inStage_writes_guarantee h {} rfl (by decide) rfl (by simp [deviceWrites])
      (by simp [deviceWrites])
  | picMaskAll =>
    exact inStage_writes_guarantee h {} rfl (by decide) rfl (by simp [deviceWrites, maskAllByte])
      (by simp [deviceWrites, maskAllByte])
  | picUnmaskKbd => exact execPicUnmaskKbd_guarantee h
  | tbClear => exact clearBuffer_guarantee h
  | tbPutc ch => exact putCell_guarantee h
  | tbNewline => exact advanceRow_guarantee h
  | kbdService => exact execKbdService_guarantee h

/-! ### The agents and the step -/

theorem deliver_guarantee (h : deliver s = .next t) : s.Guarantee t := by
  have taken : s.Guarantee s.takeInterrupt := {}
  rcases deliver_cases s with ⟨-, idle⟩ | ⟨-, -, service⟩ | ⟨-, -, bad⟩
  · rw [idle] at h; cases h; exact {}
  · rw [service] at h; exact taken.trans rfl (exec_guarantee h)
  · rw [bad] at h; cases h; exact taken.trans rfl (raise_guarantee _ .vector)

theorem step_guarantee (h : step s = .next t) : s.Guarantee t := by
  rcases step_cases s with ⟨-, idle⟩ | ⟨e, rest, -, hact⟩
  · rw [idle] at h; cases h; exact {}
  · have taken : s.Guarantee { s with inputs := rest } := {}
    rcases hact with ⟨w, i, -, -, run⟩ | ⟨w, r, -, -, illegal⟩ | ⟨on, -, setIf⟩ | ⟨-, offer⟩
    · rw [run] at h; exact taken.trans rfl (exec_guarantee h)
    · rw [illegal] at h; cases h; exact taken.trans rfl (raise_guarantee _ .illegal)
    · rw [setIf] at h; cases h; exact {}
    · rw [offer] at h; exact taken.trans rfl (deliver_guarantee h)

/-! ### The statements -/

/-- Settles O42: a step only adds bits to `FAULT`. -/
theorem faultBitsAreSticky : Obligations.FaultBitsAreSticky := by
  intro s t h
  obtain ⟨added, hfault⟩ := (step_guarantee h).fault
  ext j hj
  simpa [hfault] using Or.inl

/-- Settles O50: each `PIC_*` command runs in one stage and writes the next, nothing else writes `SEQ`. -/
theorem seqOnlyMovesForward : Obligations.SeqOnlyMovesForward :=
  fun _ _ h => (step_guarantee h).seq

/-- Settles O51: three clauses of the step's guarantee. -/
theorem flagsAndConfigurationAreKept : Obligations.FlagsAndConfigurationAreKept := fun _ _ h =>
  have kept := step_guarantee h
  ⟨kept.gateDone, kept.idtLoaded, kept.cfg⟩

/-- The keyboard entry lies outside the text buffer (R8). -/
theorem not_inTb_of_inKbdGate (h : c.wf) {a : Nat} (ha : InKbdGate c a) : ¬ InTb c a := by
  have apart := Config.kbdEntry_disjoint_tb h
  simp only [InTb, InKbdGate] at ha ⊢
  omega

/-- Settles O53: outside the text buffer a step writes only the entry, and only before `GATE_DONE`. -/
theorem gateIsWrittenOnce : Obligations.GateIsWrittenOnce :=
  fun _ _ hwf hdone h a ha =>
    (step_guarantee h).mem a (not_inTb_of_inKbdGate hwf ha) fun _ => hdone

/-- Settles O55: the appended accesses are those of R122's table, whose writes go to controller ports. -/
theorem portLogOnlyGrows : Obligations.PortLogOnlyGrows := by
  intro s t h
  obtain ⟨new, hlog, listed⟩ := (step_guarantee h).log
  refine ⟨new, hlog, fun a ha => ⟨(listed a ha).port_mem, ?_, ?_, ?_⟩⟩
  · exact (listed a ha).port_of_read
  · exact (listed a ha).mem_of_write
  · exact fun hwf hd => controllerPort_ne_keyboardPort hwf
      (controllerPort_of_mem_deviceWrites ((listed a ha).mem_of_write hd))

end Sys2Proof.Machine
end

section
/-! PROOF. A step on a command word (R41, R53), and the state right after reset (R30, R126). -/

namespace Sys2Proof.Machine

/-- A step uses up the next input and then acts on it. -/
theorem step_of_inputs_cons {s : State} {e : Input} {rest : List Input} (h : s.inputs = e :: rest) :
    step s = act e { s with inputs := rest } := by
  simp only [step, runNextInput, h]

/-- Settles O6: the next input is the word, and the word decodes. -/
theorem stepRunsTheDecodedCommand : Obligations.StepRunsTheDecodedCommand :=
  fun _ _ _ _ hinputs _ hdecode => (step_of_inputs_cons hinputs).trans (issue_of_ok hdecode)

/-- Settles O45: reset is a literal, and its memory is the empty list. -/
theorem resetGivesTheStatedValues : Obligations.ResetGivesTheStatedValues :=
  fun _ => ⟨rfl, rfl, rfl, rfl, rfl, rfl, rfl, rfl, Memory.read_nil⟩

/-- At reset no flag is set, nothing is in service, `SEQ = 0` and nothing is written, so every clause of
the invariant but the configuration's holds with nothing to show for the later stages. -/
theorem startOfRun_inv {c : Config} (h : c.wf) (ins : List Input) (answers : List Byte) :
    (State.startOfRun c ins answers).Inv where
  cfgWf := h
  memWf := .nil
  cursorOk := ⟨Nat.zero_le _, rfl⟩
  stageOk := ⟨Nat.zero_le _, nofun, nofun⟩
  shadowsOk := ⟨nofun, nofun, nofun⟩
  idtrOk := nofun
  writesOk := nofun
  gateOk := nofun
  serviceOk := nofun

theorem default_wf : Config.default.wf := by decide

/-- Settles O46: `State.reset` is the start of the run in the default configuration with no inputs and no
answers. -/
theorem invariantHoldsAtReset : Obligations.InvariantHoldsAtReset :=
  ⟨fun _ ins answers h => startOfRun_inv h ins answers, startOfRun_inv default_wf [] []⟩

end Sys2Proof.Machine
end

section
/-! PROOF. No command reads memory (R32). Two runs of one operation from states that differ in memory
alone are compared: `StoresAlike` says that the second does what the first does and stores the same
bytes. Every choice of a command is an `if` whose condition does not mention memory, so the relation
passes through the operations; only a store is compared byte by byte. -/

namespace Sys2Proof.Machine

variable {s t : State} {m n : Memory} {o o' : Out}

/-- The state with another memory in place of its own. -/
abbrev State.withMem (s : State) (n : Memory) : State := { s with mem := n }

/-- If `o`, reached from a state with memory `m`, answers a next state, then `o'`, reached from the same
state with memory `n`, answers that next state but for a memory that was stored to alike. -/
def StoresAlike (m n : Memory) (o o' : Out) : Prop :=
  ∀ t, o = .next t → ∃ n', o' = .next (t.withMem n') ∧ Memory.StoredAlike m t.mem n n'

/-! ### Passing through the branches and stores of an operation -/

/-- An answer that stores nothing. -/
theorem storesAlike_next (ht : t.mem = m) : StoresAlike m n (.next t) (.next (t.withMem n)) := by
  subst ht
  rintro _ ⟨⟩
  exact ⟨n, rfl, Memory.storedAlike_refl t.mem n⟩

/-- A choice that does not depend on memory. -/
theorem storesAlike_ite {p : Prop} [Decidable p] {q q' : Out} (hpos : StoresAlike m n o o')
    (hneg : StoresAlike m n q q') :
    StoresAlike m n (if p then o else q) (if p then o' else q') := by
  split
  · exact hpos
  · exact hneg

/-- A store followed by register updates: whether it fits does not depend on memory, and both sides
store the same run at the same address. -/
theorem storesAlike_storeBytes {a k : Nat} {bs : List Byte} {f : State → State}
    (hmem : ∀ u, (f u).mem = u.mem) (hf : ∀ u n', f (u.withMem n') = (f u).withMem n') :
    StoresAlike s.mem n (onNext (s.storeBytes a k bs) fun u => .next (f u))
      (onNext ((s.withMem n).storeBytes a k bs) fun u => .next (f u)) := by
  intro t h
  obtain ⟨u, hu, hk⟩ := onNext_eq_next h
  obtain ⟨fits, rfl⟩ := storeBytes_eq_next hu
  cases hk
  refine ⟨n.writeBytes a bs, ?_, ?_⟩
  · rw [storeBytes_of_fits fits, onNext_next]
    exact congrArg _ (hf (s.withMem (s.mem.writeBytes a bs)) (n.writeBytes a bs))
  · rw [hmem]
    exact Memory.storedAlike_writeBytes s.mem n a bs

/-! ### The shared operations -/

/-- The stage a `PIC_*` command requires does not depend on memory (R77). -/
theorem inStage_storesAlike (s : State) (n : Memory) (req : BitVec 3)
    (hbody : StoresAlike s.mem n o o') :
    StoresAlike s.mem n (s.inStage req o) ((s.withMem n).inStage req o') :=
  storesAlike_ite hbody (storesAlike_next rfl)

theorem putCell_storesAlike (s : State) (n : Memory) (ch : Byte) :
    StoresAlike s.mem n (s.putCell ch) ((s.withMem n).putCell ch) :=
  storesAlike_ite (storesAlike_next rfl) (storesAlike_storeBytes (fun _ => rfl) fun _ _ => rfl)

theorem advanceRow_storesAlike (s : State) (n : Memory) :
    StoresAlike s.mem n s.advanceRow (s.withMem n).advanceRow :=
  storesAlike_ite (storesAlike_next rfl) (storesAlike_next rfl)

theorem clearBuffer_storesAlike (s : State) (n : Memory) :
    StoresAlike s.mem n s.clearBuffer (s.withMem n).clearBuffer :=
  storesAlike_storeBytes (fun _ => rfl) fun _ _ => rfl

/-- The class of a key depends on the code and the configuration alone (R100, R102). -/
theorem dispatchKey_storesAlike (s : State) (n : Memory) (code : Byte) :
    StoresAlike s.mem n (s.dispatchKey code) ((s.withMem n).dispatchKey code) := by
  simp only [State.dispatchKey]
  cases classifyKey s.cfg code with
  | release => exact storesAlike_next rfl
  | enter => exact advanceRow_storesAlike s n
  | press i => exact putCell_storesAlike s n _

/-- The answers of the two port reads do not come from memory (R24). -/
theorem serveKeyboard_storesAlike (s : State) (n : Memory) :
    StoresAlike s.mem n s.serveKeyboard (s.withMem n).serveKeyboard :=
  storesAlike_ite
    (dispatchKey_storesAlike ((s.afterPortRead s.cfg.kbdStatus).afterPortRead s.cfg.kbdData) n _)
    (storesAlike_next rfl)

/-! ### The commands -/

theorem execGateSet_storesAlike (s : State) (n : Memory) (sel : Half) (haddr : Addr) :
    StoresAlike s.mem n (execGateSet sel haddr s) (execGateSet sel haddr (s.withMem n)) :=
  storesAlike_ite (storesAlike_next rfl) (storesAlike_storeBytes (fun _ => rfl) fun _ _ => rfl)

theorem execKbdService_storesAlike (s : State) (n : Memory) :
    StoresAlike s.mem n (execKbdService s) (execKbdService (s.withMem n)) :=
  storesAlike_ite (serveKeyboard_storesAlike s.endOfInterrupt n) (storesAlike_next rfl)

theorem exec_storesAlike (s : State) (n : Memory) (i : Instr) :
    StoresAlike s.mem n (exec i s) (exec i (s.withMem n)) := by
  cases i with
  | gateSet sel haddr => exact execGateSet_storesAlike s n sel haddr
  | idtLoad => exact storesAlike_ite (storesAlike_next rfl) (storesAlike_next rfl)
  | picIcw1 => exact inStage_storesAlike s n sIdle (storesAlike_next rfl)
  | picIcw2 => exact inStage_storesAlike s n sInit (storesAlike_next rfl)
  | picIcw3 => exact inStage_storesAlike s n sRemap (storesAlike_next rfl)
  | picIcw4 => exact inStage_storesAlike s n sCascade (storesAlike_next rfl)
  | picMaskAll => exact inStage_storesAlike s n sMode (storesAlike_next rfl)
  | picUnmaskKbd =>
    exact inStage_storesAlike s n sMasked
      (storesAlike_ite (storesAlike_next rfl) (storesAlike_next rfl))
  | tbClear => exact clearBuffer_storesAlike s n
  | tbPutc ch => exact putCell_storesAlike s n ch
  | tbNewline => exact advanceRow_storesAlike s n
  | kbdService => exact execKbdService_storesAlike s n

/-- Settles O54: every command stores alike from any two memories. -/
theorem commandsNeverReadMemory : Obligations.CommandsNeverReadMemory :=
  fun s t i h n => exec_storesAlike s n i t h

end Sys2Proof.Machine
end

section
/-! PROOF. The command encoding (R49 to R54): a word decodes to a command exactly when it is the word
of that command, and it spells a command exactly when it matches a row of the opcode map. What the
block does with a word (R53, R63) follows. -/

namespace Sys2Proof

variable {w : CommandWord} {i j : Instr}

/-! ### The fields of a word -/

/-- Bits inside the operand field can be read from it (R49). -/
theorem extractLsb'_eq_of_operandField_eq {k n : Nat} {b : BitVec 56} (h : operandField w = b)
    (hk : k + n ≤ 56) : w.extractLsb' k n = b.extractLsb' k n := by
  rw [← h, operandField, BitVec.extractLsb'_extractLsb'_of_le hk]

/-- The two fields determine the word (R49). -/
theorem encode_eq_iff_fields :
    encode i = w ↔ opcodeField w = opcode i ∧ operandField w = operand i := by
  constructor
  · rintro rfl
    exact ⟨opcodeField_encode i, operandField_encode i⟩
  · rintro ⟨hopcode, hoperand⟩
    rw [word_eq_fields w, hopcode, hoperand, encode]

/-! ### The three formats -/

/-- Format N accepts exactly the zero operand field (R50). -/
theorem decodeN_eq_ok_iff : decodeN w j = .ok i ↔ j = i ∧ operandField w = 0 := by
  unfold decodeN
  split
  · next zero => simp [zero]
  · next nonzero => exact ⟨nofun, fun h => absurd h.2 nonzero⟩

/-- Format G accepts exactly the operand fields of gate commands (R51). -/
theorem decodeG_eq_ok_iff :
    decodeG w = .ok i ↔
      ∃ sel haddr, .gateSet sel haddr = i ∧ operandField w = operand (.gateSet sel haddr) := by
  unfold decodeG
  constructor
  · intro h
    split at h
    · next reserved =>
      cases h
      refine ⟨selField w, haddrField w, rfl, ?_⟩
      rw [operand, ← reserved, selField, haddrField,
        BitVec.extractLsb'_append_extractLsb'_eq_extractLsb' (show 48 = 32 + 16 from rfl),
        BitVec.extractLsb'_append_extractLsb'_eq_extractLsb' (show 32 = 0 + 32 from rfl),
        operandField]
    · cases h
  · rintro ⟨sel, haddr, rfl, h⟩
    have reserved : w.extractLsb' 48 8 = 0 := by
      rw [extractLsb'_eq_of_operandField_eq h (by decide), operand, BitVec.append_assoc]
      exact BitVec.extractLsb'_append_eq_left
    have hsel : selField w = sel := by
      rw [selField, extractLsb'_eq_of_operandField_eq h (by decide), operand,
        BitVec.extractLsb'_append_eq_of_le (by decide)]
      exact BitVec.extractLsb'_append_eq_right
    have haddr : haddrField w = haddr := by
      rw [haddrField, extractLsb'_eq_of_operandField_eq h (by decide), operand]
      exact BitVec.extractLsb'_append_eq_right
    rw [if_pos reserved, hsel, haddr]

/-- Format C accepts exactly the operand fields of character commands (R52). -/
theorem decodeC_eq_ok_iff :
    decodeC w = .ok i ↔ ∃ ch, .tbPutc ch = i ∧ operandField w = operand (.tbPutc ch) := by
  unfold decodeC
  constructor
  · intro h
    split at h
    · next reserved =>
      cases h
      refine ⟨chField w, rfl, ?_⟩
      rw [operand, ← reserved, chField,
        BitVec.extractLsb'_append_extractLsb'_eq_extractLsb' (show 8 = 0 + 8 from rfl), operandField]
    · cases h
  · rintro ⟨ch, rfl, h⟩
    have reserved : w.extractLsb' 8 48 = 0 := by
      rw [extractLsb'_eq_of_operandField_eq h (by decide), operand]
      exact BitVec.extractLsb'_append_eq_left
    have hch : chField w = ch := by
      rw [chField, extractLsb'_eq_of_operandField_eq h (by decide), operand]
      exact BitVec.extractLsb'_append_eq_right
    rw [if_pos reserved, hch]

/-! ### The decoder inverts the encoder -/

/-- With the opcode of a command, a word that its format accepts as that command is its word. -/
theorem encode_eq_of_opcode_toNat (hopcode : (opcodeField w).toNat = (opcode i).toNat)
    (hoperand : operandField w = operand i) : encode i = w :=
  encode_eq_iff_fields.2 ⟨BitVec.eq_of_toNat_eq hopcode, hoperand⟩

/-- The word of a command with no operand, from what format N checks (R50). -/
theorem encode_eq_of_decodeN (h : decodeN w j = .ok i)
    (hopcode : (opcodeField w).toNat = (opcode j).toNat) (hj : operand j = 0) : encode i = w := by
  obtain ⟨rfl, hzero⟩ := decodeN_eq_ok_iff.1 h
  exact encode_eq_of_opcode_toNat hopcode (hzero.trans hj.symm)

theorem encode_eq_of_decode (h : decode w = .ok i) : encode i = w := by
  unfold decode at h
  split at h
  case h_1 hopcode =>
    obtain ⟨sel, haddr, rfl, hoperand⟩ := decodeG_eq_ok_iff.1 h
    exact encode_eq_of_opcode_toNat hopcode hoperand
  case h_10 hopcode =>
    obtain ⟨ch, rfl, hoperand⟩ := decodeC_eq_ok_iff.1 h
    exact encode_eq_of_opcode_toNat hopcode hoperand
  case h_13 => cases h
  all_goals exact encode_eq_of_decodeN h ‹_› rfl

theorem decode_encode (i : Instr) : decode (encode i) = .ok i := by
  cases i with
  | gateSet sel haddr =>
    simp only [decode, opcodeField_encode]
    exact decodeG_eq_ok_iff.2 ⟨sel, haddr, rfl, operandField_encode _⟩
  | tbPutc ch =>
    simp only [decode, opcodeField_encode]
    exact decodeC_eq_ok_iff.2 ⟨ch, rfl, operandField_encode _⟩
  | _ => rfl

/-- A word decodes to a command exactly when it is the word of that command (R53). -/
theorem decode_eq_ok_iff : decode w = .ok i ↔ encode i = w :=
  ⟨encode_eq_of_decode, fun h => h ▸ decode_encode i⟩

/-- Settles O1: every operand value is accepted (R51, R52), so well-formedness excludes nothing. -/
theorem decodeOfEncodeIsIdentity : Obligations.DecodeOfEncodeIsIdentity :=
  fun i _ => decode_encode i

/-- Settles O2: the decoder checks every bit that it does not read into an operand. -/
theorem encodeOfDecodeIsIdentity : Obligations.EncodeOfDecodeIsIdentity :=
  fun _ _ => encode_eq_of_decode

/-- Settles O4: each legal word is the word of its command, and each other one is refused by the
check that its format names. -/
theorem spelledWordsDecode : Obligations.SpelledWordsDecode := by
  refine ⟨?_, ?_, ?_, ?_, ?_, rfl, rfl, rfl, rfl, rfl⟩ <;> exact decode_eq_ok_iff.2 rfl

/-! ### The opcode map -/

/-- The word of every command matches the row of its mnemonic (R54). -/
theorem exists_row_of_encode (i : Instr) :
    ∃ r ∈ opcodeTable, r.mnemonic = mnemonic i ∧ r.Matches (encode i) := by
  cases i with
  | gateSet sel haddr => exact Laws.EncodingInTable.gateSet sel haddr
  | idtLoad => exact Laws.EncodingInTable.idtLoad
  | picIcw1 => exact Laws.EncodingInTable.picIcw1
  | picIcw2 => exact Laws.EncodingInTable.picIcw2
  | picIcw3 => exact Laws.EncodingInTable.picIcw3
  | picIcw4 => exact Laws.EncodingInTable.picIcw4
  | picMaskAll => exact Laws.EncodingInTable.picMaskAll
  | picUnmaskKbd => exact Laws.EncodingInTable.picUnmaskKbd
  | tbClear => exact Laws.EncodingInTable.tbClear
  | tbPutc ch => exact Laws.EncodingInTable.tbPutc ch
  | tbNewline => exact Laws.EncodingInTable.tbNewline
  | kbdService => exact Laws.EncodingInTable.kbdService

/-- A field that the mask covers is fixed by the match. -/
theorem extractLsb'_of_and_eq {mask pattern : CommandWord} {k n : Nat} (h : w &&& mask = pattern)
    (covered : mask.extractLsb' k n = BitVec.allOnes n) :
    w.extractLsb' k n = pattern.extractLsb' k n := by
  rw [← h, BitVec.extractLsb'_and, covered, BitVec.and_allOnes]

/-- The row of `GATE_SET` fixes the opcode and the reserved byte (R51). -/
theorem decode_of_matches_gateSet (h : w &&& 0xFFFF000000000000 = 0x1000000000000000) :
    decode w = .ok (.gateSet (selField w) (haddrField w)) := by
  have hopcode : opcodeField w = 0x10 := extractLsb'_of_and_eq h (by decide)
  have reserved : w.extractLsb' 48 8 = 0 := extractLsb'_of_and_eq h (by decide)
  simp only [decode, hopcode]
  exact if_pos reserved

/-- The row of `TB_PUTC` fixes the opcode and the reserved bits (R52). -/
theorem decode_of_matches_tbPutc (h : w &&& 0xFFFFFFFFFFFFFF00 = 0x3100000000000000) :
    decode w = .ok (.tbPutc (chField w)) := by
  have hopcode : opcodeField w = 0x31 := extractLsb'_of_and_eq h (by decide)
  have reserved : w.extractLsb' 8 48 = 0 := extractLsb'_of_and_eq h (by decide)
  simp only [decode, hopcode]
  exact if_pos reserved

/-- A row with a full mask has one word (R50). -/
theorem decode_of_matches_pattern {pattern : CommandWord} (h : w &&& 0xFFFFFFFFFFFFFFFF = pattern)
    (hp : decode pattern = .ok i) : decode w = .ok i := by
  have full : w &&& 0xFFFFFFFFFFFFFFFF = w := BitVec.and_allOnes
  rwa [← h, full] at hp

/-- A word that matches a row decodes to a command of the row's mnemonic (R54). -/
theorem decode_of_matches {r : OpcodeRow} (hr : r ∈ opcodeTable) (h : r.Matches w) :
    ∃ i, decode w = .ok i ∧ mnemonic i = r.mnemonic := by
  simp only [opcodeTable, List.mem_cons, List.not_mem_nil, or_false] at hr
  rcases hr with rfl | rfl | rfl | rfl | rfl | rfl | rfl | rfl | rfl | rfl | rfl | rfl
  · exact ⟨_, decode_of_matches_gateSet h, rfl⟩
  · exact ⟨.idtLoad, decode_of_matches_pattern h rfl, rfl⟩
  · exact ⟨.picIcw1, decode_of_matches_pattern h rfl, rfl⟩
  · exact ⟨.picIcw2, decode_of_matches_pattern h rfl, rfl⟩
  · exact ⟨.picIcw3, decode_of_matches_pattern h rfl, rfl⟩
  · exact ⟨.picIcw4, decode_of_matches_pattern h rfl, rfl⟩
  · exact ⟨.picMaskAll, decode_of_matches_pattern h rfl, rfl⟩
  · exact ⟨.picUnmaskKbd, decode_of_matches_pattern h rfl, rfl⟩
  · exact ⟨.tbClear, decode_of_matches_pattern h rfl, rfl⟩
  · exact ⟨_, decode_of_matches_tbPutc h, rfl⟩
  · exact ⟨.tbNewline, decode_of_matches_pattern h rfl, rfl⟩
  · exact ⟨.kbdService, decode_of_matches_pattern h rfl, rfl⟩

/-- The mnemonic names the row. -/
theorem row_eq_of_mnemonic_eq :
    ∀ r ∈ opcodeTable, ∀ r' ∈ opcodeTable, r.mnemonic = r'.mnemonic → r = r' := by
  decide

/-- Two rows differ in a bit that both masks cover. -/
theorem row_eq_of_patterns_agree :
    ∀ r ∈ opcodeTable, ∀ r' ∈ opcodeTable, r.pattern &&& r'.mask = r'.pattern &&& r.mask → r = r' := by
  decide

/-- No word matches two rows (R54). -/
theorem row_eq_of_matches {r r' : OpcodeRow} (hr : r ∈ opcodeTable) (hr' : r' ∈ opcodeTable)
    (h : r.Matches w) (h' : r'.Matches w) : r = r' := by
  refine row_eq_of_patterns_agree r hr r' hr' ?_
  rw [← h, ← h', BitVec.and_assoc, BitVec.and_assoc, BitVec.and_comm r.mask]

/-- Settles O3: the row of the command that a word decodes to is the row with its mnemonic. -/
theorem decoderAgreesWithOpcodeMap : Obligations.DecoderAgreesWithOpcodeMap := by
  refine ⟨fun r hr w => ⟨?_, decode_of_matches hr⟩, fun w r hr r' hr' => row_eq_of_matches hr hr'⟩
  rintro ⟨i, hdecode, hname⟩
  obtain ⟨r', hr', hname', hmatch⟩ := exists_row_of_encode i
  obtain rfl := row_eq_of_mnemonic_eq r' hr' r hr (hname'.trans hname)
  rwa [encode_eq_of_decode hdecode] at hmatch

/-- A word that matches no row is illegal (R53). -/
theorem decode_eq_error_of_no_match (h : ∀ r ∈ opcodeTable, w &&& r.mask ≠ r.pattern) :
    ∃ e, decode w = .error e := by
  cases hdecode : decode w with
  | error e => exact ⟨e, rfl⟩
  | ok i =>
    obtain ⟨r, hr, -, hmatch⟩ := exists_row_of_encode i
    rw [encode_eq_of_decode hdecode] at hmatch
    exact absurd hmatch (h r hr)

namespace Machine

/-! ### What the block does with a word -/

theorem commandWordOfBits_toNat (w : CommandWord) : commandWordOfBits 64 w.toNat = w := by
  rw [commandWordOfBits, Nat.mod_eq_of_lt w.isLt, BitVec.ofNat_toNat, BitVec.setWidth_eq]

/-- Settles O7: the word is put first, taken first, and decodes to its command. -/
theorem handedWordRunsNext : Obligations.HandedWordRunsNext := by
  intro s i
  rw [State.withFetchWord, commandWordOfBits_toNat]
  exact (step_of_inputs_cons (State.pushCommand_inputs s (encode i))).trans
    (issue_of_ok (decode_encode i))

/-- A word that matches no row sets bit 2 of `FAULT` (R53, R105). -/
theorem issue_of_no_match (s : State) (h : ∀ r ∈ opcodeTable, w &&& r.mask ≠ r.pattern) :
    issue w s = .next { s with fault := s.fault ||| 0b0100 } := by
  obtain ⟨e, he⟩ := decode_eq_error_of_no_match h
  exact issue_of_error he

/-- Settles O8: such a word is refused by the decoder, in a step after it is taken from the inputs. -/
theorem illegalWordOnlySetsIllegalBit : Obligations.IllegalWordOnlySetsIllegalBit :=
  ⟨fun s _ h => issue_of_no_match s h,
    fun _ _ _ hinputs h => (step_of_inputs_cons hinputs).trans (issue_of_no_match _ h),
    by decide, by decide⟩

/-! ### The table descriptor -/

/-- Settles O14: the four halves are those the packing put together (R58). -/
theorem tableDescriptorPacksAndUnpacks : Obligations.TableDescriptorPacksAndUnpacks := by
  intro limit base
  refine ⟨?_, ?_, ?_, ?_, unpack_packTableDescriptor limit base⟩
  · exact BitVec.extractLsb'_append_eq_right
  · exact BitVec.extractLsb'_append_eq_left
  · rw [packTableDescriptor, BitVec.extractLsb'_setWidth_of_le (by decide)]
    exact BitVec.extractLsb'_eq_self
  · rw [packTableDescriptor, BitVec.setWidth_eq_append (by decide)]
    exact BitVec.extractLsb'_append_eq_left

end Machine

end Sys2Proof
end

section
/-! PROOF. `TB_WRITE` (R66): each character that fits adds its cell behind those already stored, by
induction over the text; once the cursor is at the end, each later one raises `F_BOUNDS` again. -/

namespace Sys2Proof.Machine

variable {s t : State} {m m₁ m₂ : Memory}

/-! ### Runs of bytes stored one behind the other -/

/-- The empty run needs no store. -/
theorem Memory.storedAt_nil (m : Memory) (a : Nat) : Memory.StoredAt m m a [] :=
  ⟨rfl, fun _ _ => rfl⟩

/-- The second of two adjacent runs leaves the first as it was stored. -/
theorem Memory.StoredAt.append {a : Nat} {xs ys : List Byte} (hx : Memory.StoredAt m m₁ a xs)
    (hy : Memory.StoredAt m₁ m₂ (a + xs.length) ys) : Memory.StoredAt m m₂ a (xs ++ ys) := by
  obtain ⟨runX, outX⟩ := hx
  obtain ⟨runY, outY⟩ := hy
  constructor
  · have keptX : m₂.readBytes a xs.length = m₁.readBytes a xs.length :=
      Memory.readBytes_congr fun i hi => outY (a + i) (by omega)
    have split : m₂.readBytes a (xs.length + ys.length)
        = m₂.readBytes a xs.length ++ m₂.readBytes (a + xs.length) ys.length := by
      simp [Memory.readBytes, List.range_add, Nat.add_assoc]
    rw [List.length_append, split, keptX, runX, runY, List.map_append]
  · intro x hx
    rw [List.length_append] at hx
    rw [outY x (by omega), outX x (by omega)]

/-! ### Sequences of commands -/

theorem execAll_cons_of_next {i : Instr} {is : List Instr} (h : exec i s = .next t) :
    execAll (i :: is) s = execAll is t := by
  rw [execAll, h, onNext_next]

theorem execAll_append_of_next {is js : List Instr} (h : execAll is s = .next t) :
    execAll (is ++ js) s = execAll js t := by
  induction is generalizing s with
  | nil => cases h; rfl
  | cons i is ih =>
    obtain ⟨u, hu, hrest⟩ := onNext_eq_next h
    rw [List.cons_append, execAll_cons_of_next hu, ih hrest]

theorem tbWrite_append (xs ys : List Byte) : tbWrite (xs ++ ys) = tbWrite xs ++ tbWrite ys :=
  List.map_append

/-! ### The part that fits -/

/-- A character that fits is stored as its cell, and moves the cursor by two (R91). -/
theorem exec_tbPutc_of_room (ch : Byte) (hwf : s.cfg.wf)
    (room : s.cursor.toNat + 2 ≤ s.cfg.len) :
    ∃ (m : Memory) (c : BitVec 16),
      exec (.tbPutc ch) s = .next { s with mem := m, cursor := c } ∧
      c.toNat = s.cursor.toNat + 2 ∧
      Memory.StoredAt s.mem m (s.cfg.tbAddr s.cursor.toNat) [ch, s.cfg.tbAttr] :=
  ⟨_, _, putCell_of_room hwf room, toNat_cursor_of_le_len hwf room,
    Memory.storedAt_writeBytes _ _ _⟩

/-- At the end of the buffer a character raises `F_BOUNDS` and is not stored (R91). -/
theorem exec_tbPutc_of_full (ch : Byte) (full : s.cfg.len < s.cursor.toNat + 2) :
    exec (.tbPutc ch) s = .next (s.raise .bounds) :=
  putCell_of_full full

/-- A text that fits is stored, interleaved with `TB_ATTR`, and moves the cursor by two for each
character (R66). -/
theorem execAll_tbWrite_of_fits {text : List Byte} (hwf : s.cfg.wf)
    (fits : s.cursor.toNat + 2 * text.length ≤ s.cfg.len) :
    ∃ (m : Memory) (c : BitVec 16),
      execAll (tbWrite text) s = .next { s with mem := m, cursor := c } ∧
      c.toNat = s.cursor.toNat + 2 * text.length ∧
      Memory.StoredAt s.mem m (s.cfg.tbAddr s.cursor.toNat) (interleave s.cfg.tbAttr text) := by
  induction text generalizing s with
  | nil => exact ⟨s.mem, s.cursor, rfl, rfl, Memory.storedAt_nil _ _⟩
  | cons ch text ih =>
    rw [List.length_cons] at fits
    obtain ⟨m₁, c₁, put, moved, cell⟩ := exec_tbPutc_of_room ch hwf (by omega)
    obtain ⟨m, c, run, hc, stored⟩ := ih (s := { s with mem := m₁, cursor := c₁ }) hwf
      (show c₁.toNat + 2 * text.length ≤ s.cfg.len by omega)
    dsimp only at hc stored
    rw [moved, Config.tbAddr, ← Nat.add_assoc] at stored
    refine ⟨m, c, (execAll_cons_of_next put).trans run, ?_, cell.append stored⟩
    rw [hc, moved, List.length_cons]
    omega

/-! ### The part that does not fit -/

/-- A bit that is set stays set (R18). -/
theorem raise_raise (s : State) (c : Cause) : (s.raise c).raise c = s.raise c := by
  simp only [State.raise, BitVec.or_assoc, BitVec.or_self]

/-- At the end of the buffer a text raises `F_BOUNDS` and does nothing else: the cursor no longer moves
(R66, R91). -/
theorem execAll_tbWrite_of_full {ch : Byte} {text : List Byte}
    (full : s.cfg.len < s.cursor.toNat + 2) :
    execAll (tbWrite (ch :: text)) s = .next (s.raise .bounds) := by
  induction text generalizing s ch with
  | nil => exact execAll_cons_of_next (exec_tbPutc_of_full _ full)
  | cons ch' text ih =>
    have later := ih (s := s.raise .bounds) (ch := ch') full
    rw [raise_raise] at later
    exact (execAll_cons_of_next (exec_tbPutc_of_full _ full)).trans later

/-- A text that does not fit is stored up to the last character that fits (R66). -/
theorem execAll_tbWrite_of_overflow {text : List Byte} (hwf : s.cfg.wf) (hcursor : s.CursorOk)
    (overflow : s.cfg.len < s.cursor.toNat + 2 * text.length) :
    ∃ (m : Memory) (c : BitVec 16),
      execAll (tbWrite text) s =
        .next { s with mem := m, cursor := c, fault := s.fault ||| 0b0001 } ∧
      c.toNat = s.cfg.len ∧
      Memory.StoredAt s.mem m (s.cfg.tbAddr s.cursor.toNat)
        (interleave s.cfg.tbAttr (text.take ((s.cfg.len - s.cursor.toNat) / 2))) := by
  obtain ⟨inside, even⟩ := hcursor
  have evenLen := Config.len_even s.cfg
  set room := (s.cfg.len - s.cursor.toNat) / 2 with hroom
  have filled : s.cursor.toNat + 2 * room = s.cfg.len := by omega
  have taken : (text.take room).length = room := by rw [List.length_take]; omega
  obtain ⟨m, c, run, hc, stored⟩ :=
    execAll_tbWrite_of_fits (text := text.take room) hwf (by rw [taken]; omega)
  rw [taken, filled] at hc
  refine ⟨m, c, ?_, hc, stored⟩
  obtain ⟨ch, rest, hdrop⟩ : ∃ ch rest, text.drop room = ch :: rest :=
    List.exists_cons_of_ne_nil (by rw [ne_eq, List.drop_eq_nil_iff]; omega)
  have full : s.cfg.len < c.toNat + 2 := by omega
  rw [← List.take_append_drop room text, tbWrite_append, execAll_append_of_next run, hdrop]
  exact execAll_tbWrite_of_full full

/-- Settles O30: the text that fits, and the one that does not. -/
theorem tbWriteInterleavesTheText : Obligations.TbWriteInterleavesTheText :=
  fun _ _ hwf hcursor =>
    ⟨execAll_tbWrite_of_fits hwf, execAll_tbWrite_of_overflow hwf hcursor⟩

end Sys2Proof.Machine
end

section
/-! PROOF. The assembler lines (R65): the line written for a command is its mnemonic and the text of its
operands; the mnemonic is read back whole, and each numeral is read back digit by digit. -/

namespace Sys2Proof.Machine

/-! ### Numerals -/

theorem digitValue_hexChar : ∀ d < 16, digitValue 16 (hexChar d) = some d := by decide

theorem readDigits_cons_of_digit {base d : Nat} {ch : Char} (h : digitValue base ch = some d)
    (cs : List Char) (acc : Nat) :
    readDigits base (ch :: cs) acc = readDigits base cs (acc * base + d) := by
  simp only [readDigits, h]

/-- Reading stops before a character that is no digit, and at the end of the line. -/
theorem readDigits_of_head_not_digit {base : Nat} {cs : List Char}
    (h : cs.head?.bind (digitValue base) = none) (acc : Nat) :
    readDigits base cs acc = (acc, cs) := by
  cases cs with
  | nil => rfl
  | cons ch cs =>
    have hch : digitValue base ch = none := h
    simp only [readDigits, hch]

/-- A numeral that begins with a digit is read from that digit on. -/
theorem readNumber_cons_of_digit {base d : Nat} {ch : Char} (h : digitValue base ch = some d)
    (cs : List Char) : readNumber base (ch :: cs) = some (readDigits base (ch :: cs) 0) := by
  rw [readNumber, h, Option.map_some, readDigits_cons_of_digit h, Nat.zero_mul, Nat.zero_add]

/-- A written numeral begins with a digit. -/
theorem hexDigits_succ_eq_cons (n v : Nat) :
    ∃ d < 16, ∃ cs, hexDigits (n + 1) v = hexChar d :: cs := by
  induction n generalizing v with
  | zero => exact ⟨v % 16, Nat.mod_lt _ (by decide), [], rfl⟩
  | succ n ih =>
    obtain ⟨d, hd, cs, hcs⟩ := ih (v / 16)
    exact ⟨d, hd, cs ++ [hexChar (v % 16)], by rw [hexDigits, hcs, List.cons_append]⟩

/-- Reading the `n` digits written for a value appends the value's last `n` digits to what has been
read. -/
theorem readDigits_hexDigits (n v acc : Nat) (rest : List Char) :
    readDigits 16 (hexDigits n v ++ rest) acc
      = readDigits 16 rest (acc * 16 ^ n + v % 16 ^ n) := by
  induction n generalizing v rest with
  | zero => simp [hexDigits, Nat.mod_one]
  | succ n ih =>
    have last : digitValue 16 (hexChar (v % 16)) = some (v % 16) :=
      digitValue_hexChar _ (Nat.mod_lt _ (by decide))
    rw [hexDigits, List.append_assoc, List.singleton_append, ih, readDigits_cons_of_digit last,
      Nat.pow_succ', Nat.mod_mul]
    congr 1
    ring

/-- A written numeral that has room for its value reads as that value, up to what follows it. -/
theorem readNumeral_hexNumeral {n v : Nat} {rest : List Char} (hv : v < 16 ^ (n + 1))
    (hrest : rest.head?.bind (digitValue 16) = none) :
    readNumeral (hexNumeral (n + 1) v ++ rest) = some (v, rest) := by
  obtain ⟨d, hd, cs, hcs⟩ := hexDigits_succ_eq_cons n v
  have number : readNumeral (hexNumeral (n + 1) v ++ rest)
      = readNumber 16 (hexDigits (n + 1) v ++ rest) := rfl
  rw [number, hcs, List.cons_append, readNumber_cons_of_digit (digitValue_hexChar d hd),
    ← List.cons_append, ← hcs, readDigits_hexDigits, Nat.mod_eq_of_lt hv, Nat.zero_mul,
    Nat.zero_add, readDigits_of_head_not_digit hrest]

/-! ### Operands -/

/-- The blank before a numeral is skipped, and nothing of the numeral. -/
theorem skipBlanks_blank_hexNumeral (n v : Nat) (rest : List Char) :
    skipBlanks (' ' :: (hexNumeral n v ++ rest)) = hexNumeral n v ++ rest := rfl

/-- A written numeral of `n + 1` digits reads as the operand when the digits hold its width. -/
theorem lastOperand_hexNumeral {w n : Nat} (hw : 2 ^ w ≤ 16 ^ (n + 1)) (v : BitVec w) :
    lastOperand w (' ' :: hexNumeral (n + 1) v.toNat) = some v := by
  have read : readNumeral (skipBlanks (' ' :: hexNumeral (n + 1) v.toNat)) = some (v.toNat, []) := by
    rw [← List.append_nil (hexNumeral _ _), skipBlanks_blank_hexNumeral]
    exact readNumeral_hexNumeral (v.isLt.trans_le hw) rfl
  have fits : v.toNat < 2 ^ w ∧ atEnd [] = true := ⟨v.isLt, rfl⟩
  simp only [lastOperand, read, if_pos fits, BitVec.ofNat_toNat, BitVec.setWidth_eq]

/-- The operands of `GATE_SET` as they are written. -/
def selHaddrText (sel : Half) (haddr : Addr) : List Char :=
  ' ' :: (hexNumeral 4 sel.toNat ++ ',' :: ' ' :: hexNumeral 8 haddr.toNat)

theorem selHaddr_selHaddrText (sel : Half) (haddr : Addr) :
    selHaddr (selHaddrText sel haddr) = some (sel, haddr) := by
  have read : readNumeral (skipBlanks (selHaddrText sel haddr))
      = some (sel.toNat, ',' :: ' ' :: hexNumeral 8 haddr.toNat) := by
    rw [selHaddrText, skipBlanks_blank_hexNumeral]
    exact readNumeral_hexNumeral sel.isLt rfl
  have comma : skipBlanks (',' :: ' ' :: hexNumeral 8 haddr.toNat)
      = ',' :: ' ' :: hexNumeral 8 haddr.toNat := rfl
  have last := lastOperand_hexNumeral (n := 7) (by decide) haddr
  simp only [selHaddr, read, comma, if_pos sel.isLt, last, Option.map_some, BitVec.ofNat_toNat,
    BitVec.setWidth_eq]

/-- A numeral begins with no quote, so `TB_PUTC` reads it as a number. -/
theorem charOperand_hexNumeral (ch : Byte) :
    charOperand (' ' :: hexNumeral 2 ch.toNat) = some ch :=
  lastOperand_hexNumeral (n := 1) (by decide) ch

/-! ### Lines -/

/-- A character of a mnemonic neither is blank nor starts a comment. -/
theorem not_blank_of_isMnemonicChar {ch : Char} (h : isMnemonicChar ch = true) :
    isBlank ch = false ∧ ch ≠ ';' := by
  refine ⟨Bool.eq_false_of_not_eq_true fun hblank => ?_, ?_⟩
  · rcases (by simpa [isBlank] using hblank : ch = ' ' ∨ ch = '\t') with rfl | rfl
    · exact absurd h (by decide)
    · exact absurd h (by decide)
  · rintro rfl
    exact absurd h (by decide)

/-- A line that begins with a mnemonic is split where the mnemonic ends. -/
theorem parseLine_mnemonic_append {name rest : List Char} (hne : name ≠ [])
    (hname : ∀ ch ∈ name, isMnemonicChar ch = true)
    (hrest : ∀ ch ∈ rest.head?, isMnemonicChar ch = false) :
    parseLine (name ++ rest) = parseCommand name rest := by
  have ends : rest.takeWhile isMnemonicChar = [] ∧ rest.dropWhile isMnemonicChar = rest := by
    cases rest with
    | nil => exact ⟨rfl, rfl⟩
    | cons ch rest => simp [hrest ch rfl]
  have noBlank : skipBlanks (name ++ rest) = name ++ rest := by
    obtain ⟨ch, cs, rfl⟩ := List.exists_cons_of_ne_nil hne
    simp [skipBlanks, not_blank_of_isMnemonicChar (hname ch (by simp))]
  have notEnd : atEnd (name ++ rest) = false := by
    obtain ⟨ch, cs, rfl⟩ := List.exists_cons_of_ne_nil hne
    rw [List.cons_append] at noBlank ⊢
    simp [atEnd, noBlank, not_blank_of_isMnemonicChar (hname ch (by simp))]
  simp only [parseLine, notEnd, noBlank, List.takeWhile_append_of_pos hname,
    List.dropWhile_append_of_pos hname, ends, List.append_nil, Bool.false_eq_true, if_false]

/-- What is written behind the mnemonic of a command. -/
def operandText : Instr → List Char
  | .gateSet sel haddr => selHaddrText sel haddr
  | .tbPutc ch => ' ' :: hexNumeral 2 ch.toNat
  | _ => []

theorem render_eq (i : Instr) : render i = (mnemonic i).toList ++ operandText i := by
  cases i with
  | gateSet sel haddr =>
    have name : "GATE_SET ".toList = "GATE_SET".toList ++ [' '] := rfl
    have comma : ", ".toList = [',', ' '] := rfl
    change "GATE_SET ".toList ++ hexNumeral 4 sel.toNat ++ ", ".toList ++ hexNumeral 8 haddr.toNat
      = "GATE_SET".toList ++ selHaddrText sel haddr
    rw [name, comma, selHaddrText]
    simp only [List.append_assoc, List.cons_append, List.nil_append]
  | tbPutc ch =>
    have name : "TB_PUTC ".toList = "TB_PUTC".toList ++ [' '] := rfl
    change "TB_PUTC ".toList ++ hexNumeral 2 ch.toNat
      = "TB_PUTC".toList ++ ' ' :: hexNumeral 2 ch.toNat
    rw [name, List.append_assoc, List.singleton_append]
  | _ => rfl

/-- The mnemonics of R54 are words of mnemonic characters. -/
theorem mnemonic_chars_of_mem_opcodeTable :
    ∀ r ∈ opcodeTable, r.mnemonic.toList ≠ [] ∧ r.mnemonic.toList.all isMnemonicChar = true := by
  decide

/-- The operands begin with a blank, which ends the mnemonic. -/
theorem isMnemonicChar_head_operandText (i : Instr) :
    ∀ ch ∈ (operandText i).head?, isMnemonicChar ch = false := by
  cases i <;> rintro _ ⟨⟩ <;> rfl

/-- A mnemonic with the operands written for it is the command. -/
theorem parseCommand_operandText (i : Instr) :
    parseCommand (mnemonic i).toList (operandText i) = some (.command i) := by
  cases i with
  | gateSet sel haddr =>
    have arm : parseCommand "GATE_SET".toList (selHaddrText sel haddr)
        = (selHaddr (selHaddrText sel haddr)).map fun p => .command (.gateSet p.1 p.2) := rfl
    exact arm.trans (by rw [selHaddr_selHaddrText, Option.map_some])
  | tbPutc ch =>
    have arm : parseCommand "TB_PUTC".toList (' ' :: hexNumeral 2 ch.toNat)
        = (charOperand (' ' :: hexNumeral 2 ch.toNat)).map fun b => .command (.tbPutc b) := rfl
    exact arm.trans (by rw [charOperand_hexNumeral, Option.map_some])
  | _ => rfl

/-- Settles O5: the mnemonic is read whole, then the operands. -/
theorem parseOfRenderIsIdentity : Obligations.ParseOfRenderIsIdentity := by
  intro i
  obtain ⟨r, hr, hname, -⟩ := exists_row_of_encode i
  obtain ⟨hne, hchars⟩ := mnemonic_chars_of_mem_opcodeTable r hr
  rw [hname] at hne hchars
  rw [render_eq, parseLine_mnemonic_append hne (List.all_eq_true.1 hchars)
    (isMnemonicChar_head_operandText i)]
  exact parseCommand_operandText i

end Sys2Proof.Machine
end

section
/-! PROOF. The gate builder and table loader (R69): the result of `GATE_SET` and of `IDT_LOAD` when they
are admitted, what the eight stored bytes read as, and how they take the operands apart again. -/

namespace Sys2Proof.Machine

variable {s : State}

/-- `F_ORDER` is bit 1 of `FAULT` (R105). -/
theorem Cause.bit_order : Cause.order.bit = 0b0010 := rfl

/-! ### The word of `GATE_SET` -/

/-- Format G field by field (R51): the opcode, the reserved byte, the selector, the handler address. -/
theorem encode_gateSet (sel : Half) (haddr : Addr) :
    encode (.gateSet sel haddr) = (0x10 : Byte) ++ (0x00 : Byte) ++ sel ++ haddr := by
  have hoperand : operand (.gateSet sel haddr) = (0x00 : Byte) ++ (sel ++ haddr) :=
    BitVec.append_assoc
  rw [BitVec.append_assoc, BitVec.append_assoc, encode, hoperand]
  rfl

/-! ### The two fields of a gate that no operand fills -/

theorem reserved_gateDescriptor (attr : Byte) (sel : Half) (haddr : Addr) :
    (gateDescriptor attr sel haddr).extractLsb' 32 8 = 0x00 := by
  rw [gateDescriptor, BitVec.extractLsb'_append_eq_of_le (by decide),
    BitVec.extractLsb'_append_eq_of_le (by decide)]
  exact BitVec.extractLsb'_append_eq_right

theorem attr_gateDescriptor (attr : Byte) (sel : Half) (haddr : Addr) :
    (gateDescriptor attr sel haddr).extractLsb' 40 8 = attr := by
  rw [gateDescriptor, BitVec.extractLsb'_append_eq_of_le (by decide),
    BitVec.extractLsb'_append_eq_of_le (by decide), BitVec.extractLsb'_append_eq_of_le (by decide)]
  exact BitVec.extractLsb'_append_eq_right

/-! ### `GATE_SET` -/

/-- The first `GATE_SET` stores the gate and sets `GATE_DONE` (R70). -/
theorem exec_gateSet_of_notDone (hwf : s.cfg.wf) (notDone : s.gateDone = false) (sel : Half)
    (haddr : Addr) :
    exec (.gateSet sel haddr) s = .next { s with
      mem := s.mem.writeBytes s.cfg.kbdEntry (gateBytes s.cfg sel haddr)
      gateDone := true } := by
  simp only [exec, execGateSet, notDone, Bool.false_eq_true, if_false, installGate_of_wf hwf,
    onNext_next]

/-- A second `GATE_SET` is out of order (R70). -/
theorem exec_gateSet_of_done (done : s.gateDone = true) (sel : Half) (haddr : Addr) :
    exec (.gateSet sel haddr) s = .next (s.raise .order) :=
  if_pos done

theorem Memory.read_writeBytes_of_getElem? {bs : List Byte} {i : Nat} {b : Byte} (m : Memory)
    (a : Nat) (h : bs[i]? = some b) : (m.writeBytes a bs).read (a + i) = some b := by
  obtain ⟨inRun, rfl⟩ := List.getElem?_eq_some_iff.1 h
  exact read_writeBytes_at m a bs i inRun

/-- Settles O11: the bytes stored are those of the table of R55, at the keyboard's entry only. -/
theorem gateSetInstallsTheGate : Obligations.GateSetInstallsTheGate := by
  refine ⟨fun sel haddr => decode_eq_ok_iff.2 (encode_gateSet sel haddr), fun s sel haddr hwf =>
    ⟨fun notDone => ?_, fun done => exec_gateSet_of_done done sel haddr⟩⟩
  refine ⟨_, exec_gateSet_of_notDone hwf notDone sel haddr, ?_⟩
  have byteAt {i : Nat} {b : Byte} (h : (gateBytes s.cfg sel haddr)[i]? = some b) :=
    Memory.read_writeBytes_of_getElem? s.mem s.cfg.kbdEntry h
  have outside (a : Nat) (h : a < s.cfg.kbdEntry ∨ s.cfg.kbdEntry + 8 ≤ a) :=
    Memory.read_writeBytes_outside s.mem s.cfg.kbdEntry (gateBytes s.cfg sel haddr) a
      (by rwa [length_gateBytes])
  rw [gateBytes_eq] at byteAt outside ⊢
  exact ⟨byteAt rfl, byteAt rfl, byteAt rfl, byteAt rfl, byteAt rfl, byteAt rfl, byteAt rfl,
    byteAt rfl, outside⟩

/-- Settles O12: the value that the eight bytes spell is the gate descriptor of the operands. -/
theorem gateDecomposesIntoOperands : Obligations.GateDecomposesIntoOperands := by
  intro s sel haddr hwf notDone
  refine ⟨_, gateDescriptor s.cfg.gateAttr sel haddr,
    exec_gateSet_of_notDone hwf notDone sel haddr, ?_,
    gateTarget_gateDescriptor _ sel haddr, gateSelector_gateDescriptor _ sel haddr,
    reserved_gateDescriptor _ sel haddr, attr_gateDescriptor _ sel haddr⟩
  have stored := Memory.readBytes_writeBytes s.mem s.cfg.kbdEntry (gateBytes s.cfg sel haddr)
  rwa [length_gateBytes] at stored

/-! ### `IDT_LOAD` -/

/-- Settles O13: the load unpacks the pair that the command packed (R58), and needs the gate set and the
table not yet loaded (R72). -/
theorem idtLoadSetsIdtr : Obligations.IdtLoadSetsIdtr := by
  refine ⟨decode_eq_ok_iff.2 rfl, fun s => ⟨fun done notLoaded => ?_, fun refused => ?_⟩⟩
  · have admitted : ¬ (s.gateDone = false ∨ s.idtLoaded = true) := by simp [done, notLoaded]
    rw [exec, execIdtLoad_eq, if_neg admitted, State.tableLoad, unpack_packTableDescriptor]
    rfl
  · rw [exec, execIdtLoad_eq, if_pos refused]
    rfl

end Sys2Proof.Machine
end

section
/-! PROOF. The controller command sequencer (R76): the result of each of the six `PIC_*` commands in its
stage, the one stage that admits each of them (R77), the eleven writes of `PIC_CONFIG` (R84), and what
stays fixed once `S_DONE` is reached (R85). -/

namespace Sys2Proof.Machine

variable {s t : State}

/-! ### The six commands in their stages -/

/-- The two writes of a `PIC_*` step reach nothing but `PORTLOG` (R76). -/
theorem writeBothControllers_eq (s : State) (p q : Port) (b₁ b₂ : Byte) :
    s.writeBothControllers p q b₁ b₂
      = { s with portLog := s.portLog ++ [⟨.write, p, b₁⟩, ⟨.write, q, b₂⟩] } := by
  simp only [State.writeBothControllers, State.portWrite, List.append_assoc, List.cons_append,
    List.nil_append]

/-- `PIC_ICW1` in `S_IDLE` (R78). -/
theorem exec_picIcw1_of_idle (h : s.seq = sIdle) :
    exec .picIcw1 s = .next { s with
      seq := sInit
      imrPri := Config.freeMaskPri s.draws
      imrSec := Config.freeMaskSec s.draws
      draws := s.draws + 1
      portLog := s.portLog ++
        [⟨.write, s.cfg.pic1Cmd, s.cfg.icw1⟩, ⟨.write, s.cfg.pic2Cmd, s.cfg.icw1⟩] } := by
  rw [exec, execPicIcw1, inStage_of_eq h, writeBothControllers_eq]

/-- `PIC_ICW2` in `S_INIT` (R79). -/
theorem exec_picIcw2_of_init (h : s.seq = sInit) :
    exec .picIcw2 s = .next { s with
      seq := sRemap
      voffPriL := s.cfg.voffPri
      voffSecL := s.cfg.voffSec
      portLog := s.portLog ++
        [⟨.write, s.cfg.pic1Data, s.cfg.voffPri⟩, ⟨.write, s.cfg.pic2Data, s.cfg.voffSec⟩] } := by
  rw [exec, execPicIcw2, inStage_of_eq h, writeBothControllers_eq]

/-- `PIC_ICW3` in `S_REMAP` (R80). -/
theorem exec_picIcw3_of_remap (h : s.seq = sRemap) :
    exec .picIcw3 s = .next { s with
      seq := sCascade
      portLog := s.portLog ++
        [⟨.write, s.cfg.pic1Data, s.cfg.icw3Pri⟩, ⟨.write, s.cfg.pic2Data, s.cfg.icw3Sec⟩] } := by
  rw [exec, execPicIcw3, inStage_of_eq h, writeBothControllers_eq]

/-- `PIC_ICW4` in `S_CASCADE` (R81). -/
theorem exec_picIcw4_of_cascade (h : s.seq = sCascade) :
    exec .picIcw4 s = .next { s with
      seq := sMode
      portLog := s.portLog ++
        [⟨.write, s.cfg.pic1Data, s.cfg.icw4⟩, ⟨.write, s.cfg.pic2Data, s.cfg.icw4⟩] } := by
  rw [exec, execPicIcw4, inStage_of_eq h, writeBothControllers_eq]

/-- `PIC_MASK_ALL` in `S_MODE` (R82). -/
theorem exec_picMaskAll_of_mode (h : s.seq = sMode) :
    exec .picMaskAll s = .next { s with
      seq := sMasked
      imrPri := 0xFF
      imrSec := 0xFF
      portLog := s.portLog ++
        [⟨.write, s.cfg.pic1Data, 0xFF⟩, ⟨.write, s.cfg.pic2Data, 0xFF⟩] } := by
  rw [exec, execPicMaskAll, inStage_of_eq h, writeBothControllers_eq, maskAllByte]

/-- `PIC_UNMASK_KBD` in `S_MASKED` with the table loaded (R83). -/
theorem exec_picUnmaskKbd_of_masked (h : s.seq = sMasked) (loaded : s.idtLoaded = true) :
    exec .picUnmaskKbd s = .next { s with
      seq := sDone
      imrPri := 0xFD
      portLog := s.portLog ++ [⟨.write, s.cfg.pic1Data, 0xFD⟩] } := by
  rw [exec, execPicUnmaskKbd, inStage_of_eq h, if_neg (by simp [loaded]), maskKbdOnlyByte_eq,
    State.portWrite]

/-! ### Refusals -/

/-- Before the table is loaded `PIC_UNMASK_KBD` is out of order in every stage (R83). -/
theorem exec_picUnmaskKbd_of_notLoaded (h : s.idtLoaded = false) :
    exec .picUnmaskKbd s = .next (s.raise .order) := by
  by_cases stage : s.seq = sMasked
  · rw [exec, execPicUnmaskKbd, inStage_of_eq stage, if_pos h]
  · exact inStage_of_ne stage

/-- The `k`-th command of `PIC_CONFIG` is staged, in stage `k` (R77). -/
theorem exec_eq_inStage_of_picConfig {k : Nat} {i : Instr} (hi : picConfig[k]? = some i)
    (s : State) : k < 6 ∧ ∃ body, exec i s = s.inStage (BitVec.ofNat 3 k) body := by
  match k, hi with
  | 0, rfl | 1, rfl | 2, rfl | 3, rfl | 4, rfl | 5, rfl => exact ⟨by decide, _, rfl⟩

/-- In any stage but its own a `PIC_*` command is out of order (R77). -/
theorem exec_picConfig_of_otherStage {k : Nat} {i : Instr} (hi : picConfig[k]? = some i)
    (h : s.seq.toNat ≠ k) : exec i s = .next (s.raise .order) := by
  obtain ⟨bound, body, staged⟩ := exec_eq_inStage_of_picConfig hi s
  have other : s.seq ≠ BitVec.ofNat 3 k := fun e => h (by rw [e, BitVec.toNat_ofNat]; omega)
  rw [staged, inStage_of_ne other]

/-- In its own stage a `PIC_*` command completes and moves `SEQ` on by one; the last one needs the table
loaded (R77, R83). -/
theorem exec_picConfig_of_ownStage {k : Nat} {i : Instr} (hi : picConfig[k]? = some i)
    (h : s.seq.toNat = k) (loaded : k = 5 → s.idtLoaded = true) :
    ∃ t, exec i s = .next t ∧ t.seq.toNat = k + 1 ∧ t.fault = s.fault := by
  match k, hi with
  | 0, rfl => exact ⟨_, exec_picIcw1_of_idle (BitVec.eq_of_toNat_eq h), rfl, rfl⟩
  | 1, rfl => exact ⟨_, exec_picIcw2_of_init (BitVec.eq_of_toNat_eq h), rfl, rfl⟩
  | 2, rfl => exact ⟨_, exec_picIcw3_of_remap (BitVec.eq_of_toNat_eq h), rfl, rfl⟩
  | 3, rfl => exact ⟨_, exec_picIcw4_of_cascade (BitVec.eq_of_toNat_eq h), rfl, rfl⟩
  | 4, rfl => exact ⟨_, exec_picMaskAll_of_mode (BitVec.eq_of_toNat_eq h), rfl, rfl⟩
  | 5, rfl =>
    exact ⟨_, exec_picUnmaskKbd_of_masked (BitVec.eq_of_toNat_eq h) (loaded rfl), rfl, rfl⟩

/-- Settles O21: its own stage admits a command, every other refuses it, and the last is also refused
before the table is loaded. -/
theorem eachPicCommandHasOneStage : Obligations.EachPicCommandHasOneStage := by
  refine fun s k i hi => ⟨exec_picConfig_of_ownStage hi, fun refused => ?_⟩
  rcases refused with other | ⟨rfl, notLoaded⟩
  · exact exec_picConfig_of_otherStage hi other
  · cases hi
    exact exec_picUnmaskKbd_of_notLoaded notLoaded

/-! ### The masks and latches in `S_DONE` -/

/-- What the block knows of the two controllers: the stage, the masks and the latched offsets. -/
def State.controllers (s : State) : BitVec 3 × Byte × Byte × Byte × Byte :=
  (s.seq, s.imrPri, s.imrSec, s.voffPriL, s.voffSecL)

theorem State.controllers_eq_iff :
    t.controllers = s.controllers ↔ t.seq = s.seq ∧ t.imrPri = s.imrPri ∧ t.imrSec = s.imrSec ∧
      t.voffPriL = s.voffPriL ∧ t.voffSecL = s.voffSecL := by
  simp only [State.controllers, Prod.mk.injEq]

theorem putCell_controllers {ch : Byte} (h : s.putCell ch = .next t) :
    t.controllers = s.controllers := by
  rcases putCell_eq_next h with ⟨-, rfl⟩ | ⟨-, rfl⟩ <;> rfl

theorem advanceRow_controllers (h : s.advanceRow = .next t) : t.controllers = s.controllers := by
  rw [advanceRow_eq] at h
  cases h
  split <;> rfl

theorem dispatchKey_controllers {code : Byte} (h : s.dispatchKey code = .next t) :
    t.controllers = s.controllers := by
  rcases dispatchKey_cases s code with ⟨-, release⟩ | ⟨-, -, enter⟩ | ⟨-, -, press⟩
  · rw [release] at h; cases h; rfl
  · rw [enter] at h; exact advanceRow_controllers h
  · rw [press] at h; exact putCell_controllers h

theorem serveKeyboard_controllers (h : s.serveKeyboard = .next t) :
    t.controllers = s.controllers := by
  by_cases ready : dataReady (s.answerAt 0)
  · rw [serveKeyboard_of_ready ready] at h
    exact (dispatchKey_controllers h :)
  · rw [serveKeyboard_of_notReady ready] at h
    cases h
    rfl

theorem execKbdService_controllers (h : execKbdService s = .next t) :
    t.controllers = s.controllers := by
  unfold execKbdService at h
  split at h
  · exact (serveKeyboard_controllers h :)
  · cases h; rfl

/-- Only the `PIC_*` commands touch what the block knows of the controllers (R20, R76). -/
theorem exec_controllers_of_not_mem_picConfig {i : Instr} (hi : i ∉ picConfig)
    (h : exec i s = .next t) : t.controllers = s.controllers := by
  cases i with
  | gateSet sel haddr => rcases execGateSet_eq_next h with ⟨-, rfl⟩ | ⟨-, rfl⟩ <;> rfl
  | idtLoad =>
    rw [exec, execIdtLoad_eq] at h
    cases h
    split <;> rfl
  | picIcw1 | picIcw2 | picIcw3 | picIcw4 | picMaskAll | picUnmaskKbd =>
    exact absurd (by decide) hi
  | tbClear => rw [clearBuffer_eq_next h]; rfl
  | tbPutc ch => exact putCell_controllers h
  | tbNewline => exact advanceRow_controllers h
  | kbdService => exact execKbdService_controllers h

/-- In `S_DONE` every `PIC_*` command is out of order, and the others keep the controllers (R85). -/
theorem exec_controllers_of_done {i : Instr} (done : s.seq = sDone) (h : exec i s = .next t) :
    t.controllers = s.controllers := by
  by_cases hi : i ∈ picConfig
  · obtain ⟨k, hk⟩ := List.getElem?_of_mem hi
    obtain ⟨bound, -⟩ := exec_eq_inStage_of_picConfig hk s
    have other : s.seq.toNat ≠ k := by rw [done]; exact bound.ne'
    rw [exec_picConfig_of_otherStage hk other] at h
    cases h
    rfl
  · exact exec_controllers_of_not_mem_picConfig hi h

theorem deliver_controllers (h : deliver s = .next t) : t.controllers = s.controllers := by
  rcases deliver_cases s with ⟨-, idle⟩ | ⟨-, -, service⟩ | ⟨-, -, bad⟩
  · rw [idle] at h; cases h; rfl
  · rw [service] at h; exact (execKbdService_controllers h :)
  · rw [bad] at h; cases h; rfl

theorem step_controllers_of_done (done : s.seq = sDone) (h : step s = .next t) :
    t.controllers = s.controllers := by
  rcases step_cases s with ⟨-, idle⟩ | ⟨e, rest, -, hact⟩
  · rw [idle] at h; cases h; rfl
  · rcases hact with ⟨w, i, -, -, run⟩ | ⟨w, r, -, -, illegal⟩ | ⟨on, -, setIf⟩ | ⟨-, offer⟩
    · rw [run] at h; exact (exec_controllers_of_done (by exact done) h :)
    · rw [illegal] at h; cases h; rfl
    · rw [setIf] at h; cases h; rfl
    · rw [offer] at h; exact (deliver_controllers h :)

/-- Settles O23: the values are the invariant's clause on the shadows in `S_DONE`. -/
theorem configuredShadowsNeverChange : Obligations.ConfiguredShadowsNeverChange := by
  intro s inv done
  obtain ⟨latches, -, masks⟩ := inv.shadowsOk
  obtain ⟨imrPri, imrSec⟩ := masks done
  obtain ⟨voffPri, voffSec⟩ := latches (by rw [done]; decide)
  exact ⟨⟨imrPri, imrSec, voffPri, voffSec⟩, fun t h =>
    State.controllers_eq_iff.1 (step_controllers_of_done done h)⟩

/-! ### The result of each command -/

/-- Settles O15: the two mask bytes are the free values of the draw (log 24). -/
theorem picIcw1Result : Obligations.PicIcw1Result :=
  ⟨decode_eq_ok_iff.2 rfl, fun _ => ⟨fun h => ⟨_, _, exec_picIcw1_of_idle h⟩, inStage_of_ne⟩⟩

/-- Settles O16: the latches take the offsets that are written (R79). -/
theorem picIcw2Result : Obligations.PicIcw2Result :=
  ⟨decode_eq_ok_iff.2 rfl, fun _ => ⟨exec_picIcw2_of_init, inStage_of_ne⟩⟩

/-- Settles O17: only the stage and `PORTLOG` change (R80). -/
theorem picIcw3Result : Obligations.PicIcw3Result :=
  ⟨decode_eq_ok_iff.2 rfl, fun _ => ⟨exec_picIcw3_of_remap, inStage_of_ne⟩⟩

/-- Settles O18: one mode byte goes to both controllers (R81). -/
theorem picIcw4Result : Obligations.PicIcw4Result :=
  ⟨decode_eq_ok_iff.2 rfl, fun _ => ⟨exec_picIcw4_of_cascade, inStage_of_ne⟩⟩

/-- Settles O19: the mask shadows take the bytes that are written (R82). -/
theorem picMaskAllResult : Obligations.PicMaskAllResult :=
  ⟨decode_eq_ok_iff.2 rfl, fun _ => ⟨exec_picMaskAll_of_mode, inStage_of_ne⟩⟩

/-- Settles O20: the stage and the loaded table are refused separately. -/
theorem picUnmaskKbdResult : Obligations.PicUnmaskKbdResult :=
  ⟨decode_eq_ok_iff.2 rfl, fun _ => ⟨exec_picUnmaskKbd_of_masked, fun refused =>
    refused.elim inStage_of_ne exec_picUnmaskKbd_of_notLoaded⟩⟩

/-! ### `PIC_CONFIG` -/

/-- Settles O22: each command leaves the stage that the next one needs, and the appended writes add up. -/
theorem picConfigAppendsElevenWrites : Obligations.PicConfigAppendsElevenWrites := by
  intro s idle loaded
  rw [picConfig, execAll_cons_of_next (exec_picIcw1_of_idle idle),
    execAll_cons_of_next (exec_picIcw2_of_init rfl),
    execAll_cons_of_next (exec_picIcw3_of_remap rfl),
    execAll_cons_of_next (exec_picIcw4_of_cascade rfl),
    execAll_cons_of_next (exec_picMaskAll_of_mode rfl),
    execAll_cons_of_next (exec_picUnmaskKbd_of_masked rfl (by exact loaded)), execAll]
  simp only [List.append_assoc, List.cons_append, List.nil_append]

end Sys2Proof.Machine
end

section
/-! PROOF. Every step keeps the invariant. Each operation changes a few of the fields the invariant
names, and only the clauses about those fields need an argument; the commands and the agents inherit
the invariant from the operations they are made of. -/

namespace Sys2Proof.Machine

variable {s t : State}

/-! ### Updates that the invariant does not see -/

theorem raise_inv (inv : s.Inv) (c : Cause) : (s.raise c).Inv := { inv with }

theorem afterPortRead_inv (inv : s.Inv) (p : Port) : (s.afterPortRead p).Inv := { inv with }

theorem endOfInterrupt_inv (inv : s.Inv) : s.endOfInterrupt.Inv := { inv with serviceOk := nofun }

/-- A delivery becomes outstanding in `S_DONE` only (R113). -/
theorem takeInterrupt_inv (inv : s.Inv) (done : s.seq = sDone) : s.takeInterrupt.Inv :=
  { inv with serviceOk := fun _ => done }

/-! ### The text buffer -/

/-- An even offset inside the buffer is a cursor of R89. -/
theorem moveCursor_inv (inv : s.Inv) {n : Nat} (inside : n ≤ s.cfg.len) (even : n % 2 = 0) :
    ({ s with cursor := BitVec.ofNat 16 n } : State).Inv :=
  have stored := toNat_cursor_of_le_len inv.cfgWf inside
  { inv with cursorOk := ⟨stored.le.trans inside, (congrArg (· % 2) stored).trans even⟩ }

/-- A store that leaves the keyboard entry alone leaves the gate as it was installed. -/
theorem gateOk_of_read_eq {m : Memory} (ok : s.GateOk)
    (same : ∀ a, InKbdGate s.cfg a → m.read a = s.mem.read a) :
    ({ s with mem := m } : State).GateOk := by
  intro done
  have kept (i : Nat) (hi : i < 8) :
      m.read (s.cfg.kbdEntry + i) = s.mem.read (s.cfg.kbdEntry + i) :=
    same _ ⟨by omega, by omega⟩
  obtain ⟨written, reserved, attr⟩ := ok done
  exact ⟨fun i hi => (kept i hi).symm ▸ written i hi, (kept 4 (by decide)).trans reserved,
    (kept 5 (by decide)).trans attr⟩

/-- A run stored inside the text buffer writes no other byte, the gate's among them (R92, R8). -/
theorem storeText_inv (inv : s.Inv) {o : Nat} {bs : List Byte} (hfit : o + bs.length ≤ s.cfg.len) :
    ({ s with mem := s.mem.writeBytes (s.cfg.tbAddr o) bs } : State).Inv :=
  { inv with
    memWf := Memory.writeBytes_wf inv.memWf _ _
    writesOk := fun p hp => by
      rcases Memory.mem_writeBytes hp with old | new
      · exact inv.writesOk p old
      · refine .inl ?_
        simp only [InTb, Config.tbAddr] at new ⊢
        omega
    gateOk := gateOk_of_read_eq inv.gateOk fun _ ha =>
      read_writeBytes_of_not_inTb s.mem hfit (not_inTb_of_inKbdGate inv.cfgWf ha) }

theorem putCell_inv {ch : Byte} (inv : s.Inv) (h : s.putCell ch = .next t) : t.Inv := by
  obtain ⟨-, even⟩ := inv.cursorOk
  rcases putCell_eq_next h with ⟨-, rfl⟩ | ⟨room, rfl⟩
  · exact raise_inv inv .bounds
  · exact moveCursor_inv (storeText_inv inv room) room (by omega)

theorem advanceRow_inv (inv : s.Inv) (h : s.advanceRow = .next t) : t.Inv := by
  rw [advanceRow_eq] at h
  cases h
  split
  · exact raise_inv inv .bounds
  · next room => exact moveCursor_inv inv (by omega) (nextRowBoundary_even inv.cfgWf _)

theorem clearBuffer_inv (inv : s.Inv) (h : s.clearBuffer = .next t) : t.Inv := by
  rw [clearBuffer_eq_next h]
  exact moveCursor_inv (n := 0) (storeText_inv inv (by simp)) (Nat.zero_le _) rfl

/-! ### The keyboard service -/

theorem dispatchKey_inv {code : Byte} (inv : s.Inv) (h : s.dispatchKey code = .next t) : t.Inv := by
  rcases dispatchKey_cases s code with ⟨-, release⟩ | ⟨-, -, enter⟩ | ⟨-, -, press⟩
  · rw [release] at h; cases h; exact inv
  · rw [enter] at h; exact advanceRow_inv inv h
  · rw [press] at h; exact putCell_inv inv h

theorem serveKeyboard_inv (inv : s.Inv) (h : s.serveKeyboard = .next t) : t.Inv := by
  by_cases ready : dataReady (s.answerAt 0)
  · rw [serveKeyboard_of_ready ready] at h
    exact dispatchKey_inv (afterPortRead_inv (afterPortRead_inv inv _) _) h
  · rw [serveKeyboard_of_notReady ready] at h
    cases h
    exact afterPortRead_inv inv _

theorem execKbdService_inv (inv : s.Inv) (h : execKbdService s = .next t) : t.Inv := by
  unfold execKbdService at h
  split at h
  · exact serveKeyboard_inv (endOfInterrupt_inv inv) h
  · cases h
    exact raise_inv inv .order

/-! ### Gate and table -/

/-- A gate just installed has all its bytes, the reserved byte and the type byte among them (R55,
R56). -/
theorem gateOk_of_installed {m : Memory} {sel : Half} {haddr : Addr}
    (installed : s.mem = m.writeBytes s.cfg.kbdEntry (gateBytes s.cfg sel haddr)) : s.GateOk := by
  intro _
  have byteAt {i : Nat} {b : Byte} (hi : (gateBytes s.cfg sel haddr)[i]? = some b) :
      s.mem.read (s.cfg.kbdEntry + i) = some b :=
    installed ▸ Memory.read_writeBytes_of_getElem? m s.cfg.kbdEntry hi
  refine ⟨fun i hi => ?_, byteAt ?_, byteAt ?_⟩
  · exact Option.isSome_of_mem (byteAt (List.getElem?_eq_getElem (by rwa [length_gateBytes])))
  · rw [gateBytes_eq]; rfl
  · rw [gateBytes_eq]; rfl

theorem execGateSet_inv {sel : Half} {haddr : Addr} (inv : s.Inv)
    (h : execGateSet sel haddr s = .next t) : t.Inv := by
  rcases execGateSet_eq_next h with ⟨-, rfl⟩ | ⟨notDone, rfl⟩
  · exact raise_inv inv .order
  · obtain ⟨stage, -, loaded⟩ := inv.stageOk
    exact { inv with
      memWf := Memory.writeBytes_wf inv.memWf _ _
      stageOk := ⟨stage, fun _ => rfl, loaded⟩
      writesOk := fun p hp => by
        rcases Memory.mem_writeBytes hp with old | new
        · exact (inv.writesOk p old).imp_right fun ⟨_, inGate⟩ => ⟨rfl, inGate⟩
        · rw [length_gateBytes] at new
          exact .inr ⟨rfl, new⟩
      gateOk := gateOk_of_installed rfl }

theorem execIdtLoad_inv (inv : s.Inv) (h : execIdtLoad s = .next t) : t.Inv := by
  rw [execIdtLoad_eq] at h
  cases h
  split
  · exact raise_inv inv .order
  · next admitted =>
    obtain ⟨stage, -, -⟩ := inv.stageOk
    have gateDone : s.gateDone = true :=
      Bool.eq_true_of_not_eq_false fun notDone => admitted (.inl notDone)
    refine { inv with stageOk := ⟨stage, fun _ => gateDone, fun _ => rfl⟩, idtrOk := fun _ => ?_ }
    rw [State.tableLoad, unpack_packTableDescriptor]
    exact ⟨rfl, rfl⟩

/-! ### The controllers -/

theorem inStage_inv {req : BitVec 3} {body : Out} (inv : s.Inv) (h : s.inStage req body = .next t)
    (hbody : s.seq = req → body = .next t → t.Inv) : t.Inv := by
  rcases inStage_eq_next h with ⟨stage, hb⟩ | ⟨-, rfl⟩
  · exact hbody stage hb
  · exact raise_inv inv .order

/-- The first five `PIC_*` commands (R78 to R82) enter a stage between `S_IDLE` and `S_DONE`, where
no delivery is outstanding; the shadows must be those of the stage entered. -/
theorem inStage_advance_inv {req : BitVec 3} {u : State} (inv : s.Inv)
    (h : s.inStage req (.next u) = .next t)
    (rest : State.Inv { u with
      seq := s.seq
      imrPri := s.imrPri
      imrSec := s.imrSec
      voffPriL := s.voffPriL
      voffSecL := s.voffSecL })
    (hnext : u.seq.toNat = req.toNat + 1) (hreq : req.toNat < 5)
    (shadows : s.seq = req → u.ShadowsOk) : t.Inv :=
  inStage_inv inv h fun stage hb => by
    cases hb
    obtain ⟨-, gate, -⟩ := rest.stageOk
    have doneStage : sDone.toNat = 6 := rfl
    have before : s.seq ≠ sDone := fun e => by rw [← stage, e] at hreq; omega
    have notDone : t.seq ≠ sDone := fun e => by rw [e] at hnext; omega
    exact { rest with
      stageOk := ⟨by omega, gate, fun done => absurd done notDone⟩
      shadowsOk := shadows stage
      serviceOk := fun service => absurd (rest.serviceOk service) before }

/-- From `S_REMAP` on the latches hold the offsets (R79). -/
theorem latched_of_stage {req : BitVec 3} (inv : s.Inv) (stage : s.seq = req)
    (hreq : 2 ≤ req.toNat) : s.voffPriL = s.cfg.voffPri ∧ s.voffSecL = s.cfg.voffSec :=
  inv.shadowsOk.1 (stage ▸ hreq)

/-- `PIC_UNMASK_KBD` enters `S_DONE` from a masked state with the table loaded (R83, R98). -/
theorem execPicUnmaskKbd_inv (inv : s.Inv) (h : execPicUnmaskKbd s = .next t) : t.Inv := by
  refine inStage_inv inv h fun stage hb => ?_
  split at hb <;> cases hb
  · exact raise_inv inv .order
  · next loaded =>
    obtain ⟨-, gate, -⟩ := inv.stageOk
    obtain ⟨-, masked, -⟩ := inv.shadowsOk
    obtain ⟨-, imrSec⟩ := masked stage
    have latched := latched_of_stage inv stage (by decide)
    exact { inv with
      stageOk := ⟨le_rfl, gate, fun _ => Bool.eq_true_of_not_eq_false loaded⟩
      shadowsOk := ⟨fun _ => latched, nofun, fun _ => ⟨maskKbdOnlyByte_eq, imrSec⟩⟩
      serviceOk := fun _ => rfl }

/-! ### The commands, the agents and the step -/

theorem exec_inv {i : Instr} (inv : s.Inv) (h : exec i s = .next t) : t.Inv := by
  cases i with
  | gateSet sel haddr => exact execGateSet_inv inv h
  | idtLoad => exact execIdtLoad_inv inv h
  | picIcw1 =>
    exact inStage_advance_inv inv h { inv with } rfl (by decide) fun _ => ⟨nofun, nofun, nofun⟩
  | picIcw2 =>
    exact inStage_advance_inv inv h { inv with } rfl (by decide) fun _ =>
      ⟨fun _ => ⟨rfl, rfl⟩, nofun, nofun⟩
  | picIcw3 =>
    exact inStage_advance_inv inv h { inv with } rfl (by decide) fun stage =>
      have latched := latched_of_stage inv stage (by decide)
      ⟨fun _ => latched, nofun, nofun⟩
  | picIcw4 =>
    exact inStage_advance_inv inv h { inv with } rfl (by decide) fun stage =>
      have latched := latched_of_stage inv stage (by decide)
      ⟨fun _ => latched, nofun, nofun⟩
  | picMaskAll =>
    exact inStage_advance_inv inv h { inv with } rfl (by decide) fun stage =>
      have latched := latched_of_stage inv stage (by decide)
      ⟨fun _ => latched, fun _ => ⟨rfl, rfl⟩, nofun⟩
  | picUnmaskKbd => exact execPicUnmaskKbd_inv inv h
  | tbClear => exact clearBuffer_inv inv h
  | tbPutc ch => exact putCell_inv inv h
  | tbNewline => exact advanceRow_inv inv h
  | kbdService => exact execKbdService_inv inv h

theorem deliver_inv (inv : s.Inv) (h : deliver s = .next t) : t.Inv := by
  rcases deliver_cases s with ⟨-, idle⟩ | ⟨⟨done, -⟩, -, service⟩ | ⟨⟨done, -⟩, -, bad⟩
  · rw [idle] at h; cases h; exact inv
  · rw [service] at h; exact exec_inv (takeInterrupt_inv inv done) h
  · rw [bad] at h; cases h; exact raise_inv (takeInterrupt_inv inv done) .vector

/-- Settles O47: the agents do nothing to the fields of the invariant but issue commands and, in
`S_DONE`, take the interrupt. -/
theorem stepKeepsTheInvariant : Obligations.StepKeepsTheInvariant := by
  intro s t inv h
  rcases step_cases s with ⟨-, idle⟩ | ⟨e, rest, -, hact⟩
  · rw [idle] at h; cases h; exact inv
  · have taken : ({ s with inputs := rest } : State).Inv := { inv with }
    rcases hact with ⟨w, i, -, -, run⟩ | ⟨w, r, -, -, illegal⟩ | ⟨on, -, setIf⟩ | ⟨-, offer⟩
    · rw [run] at h; exact exec_inv taken h
    · rw [illegal] at h; cases h; exact raise_inv taken .illegal
    · rw [setIf] at h; cases h; exact { taken with }
    · rw [offer] at h; exact deliver_inv taken h

end Sys2Proof.Machine
end

section
/-! PROOF. The text-buffer controller (R87): what `TB_CLEAR`, `TB_PUTC` and `TB_NEWLINE` store and
where they leave the cursor, that nothing but a clear moves it back (R96), and the two regions that a
step may write (R75, R92). -/

namespace Sys2Proof.Machine

variable {s t : State} {c : Config}

/-! ### `TB_CLEAR` -/

/-- Every cell of a cleared buffer reads as (`SPACE`, `TB_ATTR`) (R90). -/
theorem read_clearedBuffer (m : Memory) {k : Nat} (hk : k < c.rows * c.cols) :
    (m.writeBytes (c.tbAddr 0) (clearedBuffer c)).read (c.tbAddr (2 * k)) = some c.space ∧
    (m.writeBytes (c.tbAddr 0) (clearedBuffer c)).read (c.tbAddr (2 * k + 1)) = some c.tbAttr := by
  have hlen := Config.len_eq_two_mul_cells c
  rw [Config.cells] at hlen
  have byteAt {o : Nat} (ho : o < c.len) :
      (m.writeBytes (c.tbAddr 0) (clearedBuffer c)).read (c.tbAddr o)
        = some (if o % 2 = 0 then c.space else c.tbAttr) :=
    Memory.read_writeBytes_of_getElem? m (c.tbAddr 0) (getElem?_clearedBuffer c ho)
  constructor
  · rw [byteAt (by omega), if_pos (by omega)]
  · rw [byteAt (by omega), if_neg (by omega)]

/-- Settles O24: the buffer is one run of cells from its first byte to its last. -/
theorem tbClearFillsTheBuffer : Obligations.TbClearFillsTheBuffer := by
  refine ⟨decode_eq_ok_iff.2 rfl, fun s hwf => ⟨_, clearBuffer_of_wf hwf, ?_, fun a outside => ?_⟩⟩
  · exact fun k hk => read_clearedBuffer s.mem hk
  · refine read_writeBytes_of_not_inTb s.mem (by simp) fun ⟨above, below⟩ => ?_
    omega

/-- Of two runs of one length stored at the same place the second is what remains. -/
theorem Memory.writeBytes_writeBytes (m : Memory) (a : Nat) {xs ys : List Byte}
    (hlen : xs.length = ys.length) : (m.writeBytes a xs).writeBytes a ys = m.writeBytes a ys := by
  have lowCells : (cellsAt a xs).filter (fun p => decide (p.1 < a)) = [] :=
    List.filter_eq_nil_iff.2 fun p hp => by have := mem_cellsAt_bounds hp; simp; omega
  have highCells : (cellsAt a xs).filter (fun p => decide (a + ys.length ≤ p.1)) = [] :=
    List.filter_eq_nil_iff.2 fun p hp => by have := mem_cellsAt_bounds hp; simp; omega
  have lowOfHigh : m.filter (fun p => decide (p.1 < a) && decide (a + ys.length ≤ p.1)) = [] :=
    List.filter_eq_nil_iff.2 fun p _ => by simp; omega
  have highOfLow : m.filter (fun p => decide (a + ys.length ≤ p.1) && decide (p.1 < a)) = [] :=
    List.filter_eq_nil_iff.2 fun p _ => by simp; omega
  simp only [writeBytes, List.filter_append, List.filter_filter, hlen, lowCells, highCells,
    lowOfHigh, highOfLow, Bool.and_self, List.append_nil, List.nil_append]

/-- A clear answers a next state exactly when the buffer lies in the address space (R63). -/
theorem clearBuffer_eq_next_iff :
    s.clearBuffer = .next t ↔ s.cfg.tbAddr 0 + s.cfg.len ≤ 2 ^ 32 ∧ t = { s with
      mem := s.mem.writeBytes (s.cfg.tbAddr 0) (clearedBuffer s.cfg)
      cursor := 0 } := by
  constructor
  · intro h
    obtain ⟨u, hu, -⟩ := onNext_eq_next h
    exact ⟨(storeBytes_eq_next hu).1, clearBuffer_eq_next h⟩
  · rintro ⟨fits, rfl⟩
    rw [State.clearBuffer, storeBytes_of_fits fits, onNext_next]

/-- Settles O25: the second clear stores the same run over the first. -/
theorem secondTbClearChangesNothing : Obligations.SecondTbClearChangesNothing := by
  intro s t h
  obtain ⟨fits, rfl⟩ := clearBuffer_eq_next_iff.1 h
  refine clearBuffer_eq_next_iff.2 ⟨fits, ?_⟩
  rw [Memory.writeBytes_writeBytes _ _ rfl]

/-! ### `TB_PUTC` -/

/-- Format C field by field (R52): the opcode, the reserved bits, the character. -/
theorem encode_tbPutc (ch : Byte) :
    encode (.tbPutc ch) = (0x31 : Byte) ++ (0 : BitVec 48) ++ ch := by
  rw [BitVec.append_assoc, encode]
  rfl

/-- A cursor with room for a cell moves on by two without wrapping around (R17). -/
theorem toNat_cursor_add_two (hwf : c.wf) {n : BitVec 16} (room : n.toNat + 2 ≤ c.len) :
    (n + 2).toNat = n.toNat + 2 := by
  have bound := Config.len_le hwf
  bv_omega

/-- Settles O26: a cell that fits is stored at the cursor; one that does not is refused. -/
theorem tbPutcStoresTheCell : Obligations.TbPutcStoresTheCell := by
  refine ⟨fun ch => decode_eq_ok_iff.2 (encode_tbPutc ch), fun s ch hwf =>
    ⟨fun room => ?_, exec_tbPutc_of_full ch⟩⟩
  have moved := toNat_cursor_add_two hwf room
  have cursor : s.cursor + 2 = BitVec.ofNat 16 (s.cursor.toNat + 2) := by
    rw [← moved, BitVec.ofNat_toNat, BitVec.setWidth_eq]
  have byteAt {i : Nat} {b : Byte} (hi : [ch, s.cfg.tbAttr][i]? = some b) :=
    Memory.read_writeBytes_of_getElem? s.mem (s.cfg.tbAddr s.cursor.toNat) hi
  have outside :=
    Memory.read_writeBytes_outside s.mem (s.cfg.tbAddr s.cursor.toNat) [ch, s.cfg.tbAttr]
  refine ⟨_, ?_, moved, byteAt (i := 0) rfl, byteAt (i := 1) rfl, outside⟩
  rw [cursor]
  exact putCell_of_room hwf room

/-! ### `TB_NEWLINE` -/

/-- A newline whose next row starts inside the buffer or at its end moves the cursor there (R93). -/
theorem exec_tbNewline_of_room (room : nextRowBoundary s.cfg s.cursor.toNat ≤ s.cfg.len) :
    exec .tbNewline s
      = .next { s with cursor := BitVec.ofNat 16 (nextRowBoundary s.cfg s.cursor.toNat) } := by
  rw [exec, execTbNewline, advanceRow_eq, if_neg (by omega)]

/-- A newline past the end raises `F_BOUNDS` and does nothing else (R93). -/
theorem exec_tbNewline_of_full (full : s.cfg.len < nextRowBoundary s.cfg s.cursor.toNat) :
    exec .tbNewline s = .next (s.raise .bounds) := by
  rw [exec, execTbNewline, advanceRow_eq, if_pos full]

/-- With a cursor of R89 a newline passes the end exactly at the end (R93). -/
theorem len_lt_nextRowBoundary_iff (hwf : c.wf) {n : Nat} (hn : n ≤ c.len) :
    c.len < nextRowBoundary c n ↔ n = c.len := by
  constructor
  · intro past
    by_contra before
    exact past.not_ge (nextRowBoundary_le_len hwf (by omega))
  · rintro rfl
    exact len_lt_nextRowBoundary_len hwf

/-- Settles O27: the formula is the start of the next row. -/
theorem tbNewlineFollowsTheFormula : Obligations.TbNewlineFollowsTheFormula := by
  refine ⟨decode_eq_ok_iff.2 rfl, fun s new hwf hnew => ?_⟩
  obtain rfl : new = nextRowBoundary s.cfg s.cursor.toNat := hnew
  refine ⟨fun room => ⟨exec_tbNewline_of_room room, toNat_cursor_of_le_len hwf room⟩,
    exec_tbNewline_of_full, fun ⟨inside, _⟩ => len_lt_nextRowBoundary_iff hwf inside⟩

/-- The next row starts at the smallest multiple of the row length past the cursor (R95 d). -/
theorem nextRowBoundary_le_of_multiple (hwf : c.wf) {n k : Nat} (multiple : k % c.rowBytes = 0)
    (past : n < k) : nextRowBoundary c n ≤ k := by
  obtain ⟨row, rfl⟩ := Nat.dvd_of_mod_eq_zero multiple
  rw [nextRowBoundary_eq hwf, Nat.mul_comm c.rowBytes]
  exact Nat.mul_le_mul_right _ (Nat.div_lt_of_lt_mul past)

/-- Settles O28: the new cursor is the start of the row after the cursor's. -/
theorem newlineReachesTheNextRow : Obligations.NewlineReachesTheNextRow := by
  intro s hwf before
  have room := nextRowBoundary_le_len hwf before
  obtain ⟨greater, near⟩ := nextRowBoundary_bounds hwf s.cursor.toNat
  refine ⟨_, exec_tbNewline_of_room room, ?_⟩
  dsimp only
  rw [toNat_cursor_of_le_len hwf room]
  refine ⟨?_, greater, by omega, fun n => nextRowBoundary_le_of_multiple hwf, ?_⟩
  · rw [nextRowBoundary_eq hwf, Nat.mul_mod_left]
  · rw [nextRowBoundary_eq hwf, Nat.mul_div_cancel _ (Config.rowBytes_pos hwf)]

/-! ### The cursor never moves back -/

theorem putCell_cursor_le {ch : Byte} (hwf : s.cfg.wf) (h : s.putCell ch = .next t) :
    s.cursor.toNat ≤ t.cursor.toNat := by
  rcases putCell_eq_next h with ⟨-, rfl⟩ | ⟨room, rfl⟩
  · exact le_rfl
  · have stored := toNat_cursor_of_le_len hwf room
    dsimp only
    omega

theorem advanceRow_cursor_le (hwf : s.cfg.wf) (h : s.advanceRow = .next t) :
    s.cursor.toNat ≤ t.cursor.toNat := by
  rw [advanceRow_eq] at h
  cases h
  split
  · exact le_rfl
  · next room =>
    obtain ⟨greater, -⟩ := nextRowBoundary_bounds hwf s.cursor.toNat
    have stored := toNat_cursor_of_le_len hwf (Nat.le_of_not_lt room)
    dsimp only
    omega

theorem dispatchKey_cursor_le {code : Byte} (hwf : s.cfg.wf) (h : s.dispatchKey code = .next t) :
    s.cursor.toNat ≤ t.cursor.toNat := by
  rcases dispatchKey_cases s code with ⟨-, release⟩ | ⟨-, -, enter⟩ | ⟨-, -, press⟩
  · rw [release] at h; cases h; exact le_rfl
  · rw [enter] at h; exact advanceRow_cursor_le hwf h
  · rw [press] at h; exact putCell_cursor_le hwf h

theorem execKbdService_cursor_le (hwf : s.cfg.wf) (h : execKbdService s = .next t) :
    s.cursor.toNat ≤ t.cursor.toNat := by
  unfold execKbdService at h
  split at h
  · by_cases ready : dataReady (s.endOfInterrupt.answerAt 0)
    · rw [serveKeyboard_of_ready ready] at h
      exact dispatchKey_cursor_le
        (s := (s.endOfInterrupt.afterPortRead _).afterPortRead _) hwf h
    · rw [serveKeyboard_of_notReady ready] at h
      cases h
      exact le_rfl
  · cases h
    exact le_rfl

/-- A staged command whose body leaves the cursor alone leaves it alone in every stage (R77). -/
theorem inStage_cursor_le {req : BitVec 3} {body : Out} (h : s.inStage req body = .next t)
    (hbody : body = .next t → t.cursor = s.cursor) : s.cursor.toNat ≤ t.cursor.toNat := by
  rcases inStage_eq_next h with ⟨-, hb⟩ | ⟨-, rfl⟩
  · rw [hbody hb]
  · exact le_rfl

/-- Of the operations that write the cursor, only a clear can move it back. -/
theorem exec_cursor_le {i : Instr} (hwf : s.cfg.wf) (hi : i ≠ .tbClear) (h : exec i s = .next t) :
    s.cursor.toNat ≤ t.cursor.toNat := by
  cases i with
  | gateSet sel haddr => rcases execGateSet_eq_next h with ⟨-, rfl⟩ | ⟨-, rfl⟩ <;> exact le_rfl
  | idtLoad =>
    rw [exec, execIdtLoad_eq] at h
    cases h
    split <;> exact le_rfl
  | picIcw1 | picIcw2 | picIcw3 | picIcw4 | picMaskAll =>
    exact inStage_cursor_le h fun hb => by cases hb; rfl
  | picUnmaskKbd => exact inStage_cursor_le h fun hb => by split at hb <;> cases hb <;> rfl
  | tbClear => exact absurd rfl hi
  | tbPutc ch => exact putCell_cursor_le hwf h
  | tbNewline => exact advanceRow_cursor_le hwf h
  | kbdService => exact execKbdService_cursor_le hwf h

theorem deliver_cursor_le (hwf : s.cfg.wf) (h : deliver s = .next t) :
    s.cursor.toNat ≤ t.cursor.toNat := by
  rcases deliver_cases s with ⟨-, idle⟩ | ⟨-, -, service⟩ | ⟨-, -, bad⟩
  · rw [idle] at h; cases h; exact le_rfl
  · rw [service] at h; exact execKbdService_cursor_le (s := s.takeInterrupt) hwf h
  · rw [bad] at h; cases h; exact le_rfl

/-- Settles O31: the cursor moves only when a command runs, and the command that a word runs is the
one it decodes to. -/
theorem onlyClearDecreasesTheCursor : Obligations.OnlyClearDecreasesTheCursor := by
  intro s t hwf h notClear
  rcases step_cases s with ⟨-, idle⟩ | ⟨e, rest, hinputs, hact⟩
  · rw [idle] at h; cases h; exact le_rfl
  · rcases hact with ⟨w, i, rfl, hdecode, run⟩ | ⟨w, r, -, -, illegal⟩ | ⟨on, -, setIf⟩ | ⟨-, offer⟩
    · rw [run] at h
      have hi : i ≠ .tbClear := fun e => notClear w rest hinputs (e ▸ hdecode)
      exact exec_cursor_le (s := { s with inputs := rest }) hwf hi h
    · rw [illegal] at h; cases h; exact le_rfl
    · rw [setIf] at h; cases h; exact le_rfl
    · rw [offer] at h
      exact deliver_cursor_le (s := { s with inputs := rest }) hwf h

/-! ### The regions a step may write -/

/-- Settles O52: outside the entry the guarantee of a step asks nothing of `GATE_DONE`. -/
theorem stepWritesOnlyBufferAndGate : Obligations.StepWritesOnlyBufferAndGate :=
  fun _ _ _ h a notTb notGate => (step_guarantee h).mem a notTb fun inGate => absurd inGate notGate

end Sys2Proof.Machine
end

section
/-! PROOF. The keyboard service (R97): `KBD_SERVICE` when it is refused and when it is admitted, what
the port accesses leave for the dispatch on the code, and what each class of code does with and without
room in the buffer (R100, R101). The table plays a part in a press only, at the code pressed (R102). -/

namespace Sys2Proof.Machine

variable {s t : State} {code : Byte}

/-! ### The state after the port accesses -/

/-- After the acknowledgment and the status read (R100 steps 1 and 2). -/
def State.afterStatusRead (s : State) : State :=
  { s with
    inService := false
    portAnswers := s.portAnswers.drop 1
    draws := s.draws + 1
    portLog := s.portLog ++
      [⟨.write, s.cfg.pic1Cmd, s.cfg.eoiCmd⟩, ⟨.read, s.cfg.kbdStatus, s.answerAt 0⟩] }

/-- After the acknowledgment and both reads (R100 steps 1 to 3). -/
def State.afterKeyRead (s : State) : State :=
  { s with
    inService := false
    portAnswers := s.portAnswers.drop 2
    draws := s.draws + 2
    portLog := s.portLog ++
      [⟨.write, s.cfg.pic1Cmd, s.cfg.eoiCmd⟩, ⟨.read, s.cfg.kbdStatus, s.answerAt 0⟩,
        ⟨.read, s.cfg.kbdData, s.answerAt 1⟩] }

theorem afterPortRead_endOfInterrupt (s : State) :
    s.endOfInterrupt.afterPortRead s.cfg.kbdStatus = s.afterStatusRead := by
  simp only [State.afterPortRead, State.endOfInterrupt, State.portWrite, State.afterStatusRead,
    List.append_assoc, List.cons_append, List.nil_append, List.drop_one]
  rfl

theorem afterPortRead_afterStatusRead (s : State) :
    s.afterStatusRead.afterPortRead s.cfg.kbdData = s.afterKeyRead := by
  have answer : s.afterStatusRead.answerAt 0 = s.answerAt 1 := by
    rw [← afterPortRead_endOfInterrupt, answerAt_afterPortRead, answerAt_endOfInterrupt]
  simp only [State.afterPortRead, answer]
  simp only [State.afterStatusRead, State.afterKeyRead, List.append_assoc, List.cons_append,
    List.nil_append, List.tail_drop, Nat.add_assoc, Nat.reduceAdd]

/-! ### The command by its admission and the status byte -/

/-- Not deliverable, the command is out of order (R98). -/
theorem exec_kbdService_of_notDeliverable (h : ¬ s.Deliverable) :
    exec .kbdService s = .next (s.raise .order) :=
  if_neg h

theorem exec_kbdService_of_deliverable (h : s.Deliverable) :
    exec .kbdService s = s.endOfInterrupt.serveKeyboard :=
  if_pos h

/-- No code ready, the service ends with the status read (R101). -/
theorem exec_kbdService_of_notReady (deliverable : s.Deliverable)
    (notReady : ¬ dataReady (s.answerAt 0)) : exec .kbdService s = .next s.afterStatusRead := by
  rw [exec_kbdService_of_deliverable deliverable, ← afterPortRead_endOfInterrupt]
  exact serveKeyboard_of_notReady (s := s.endOfInterrupt) notReady

/-- A code ready, the service dispatches on it (R100 steps 4 to 6). -/
theorem exec_kbdService_of_ready (deliverable : s.Deliverable) (ready : dataReady (s.answerAt 0)) :
    exec .kbdService s = s.afterKeyRead.dispatchKey (s.answerAt 1) := by
  rw [exec_kbdService_of_deliverable deliverable, ← afterPortRead_afterStatusRead,
    ← afterPortRead_endOfInterrupt]
  exact serveKeyboard_of_ready (s := s.endOfInterrupt) ready

/-- Everything `KBD_SERVICE` can do: refused, ended after the status read, or dispatched. -/
theorem exec_kbdService_cases (s : State) :
    (¬ s.Deliverable ∧ exec .kbdService s = .next (s.raise .order)) ∨
    (s.Deliverable ∧ ¬ dataReady (s.answerAt 0) ∧ exec .kbdService s = .next s.afterStatusRead) ∨
    (s.Deliverable ∧ dataReady (s.answerAt 0) ∧
      exec .kbdService s = s.afterKeyRead.dispatchKey (s.answerAt 1)) := by
  by_cases deliverable : s.Deliverable
  · by_cases ready : dataReady (s.answerAt 0)
    · exact .inr (.inr ⟨deliverable, ready, exec_kbdService_of_ready deliverable ready⟩)
    · exact .inr (.inl ⟨deliverable, ready, exec_kbdService_of_notReady deliverable ready⟩)
  · exact .inl ⟨deliverable, exec_kbdService_of_notDeliverable deliverable⟩

/-! ### The dispatch on the code -/

theorem dispatchKey_of_release (h : code.getLsbD 7 = true) : s.dispatchKey code = .next s := by
  rw [State.dispatchKey, classifyKey_release h]

theorem dispatchKey_of_enter (h : code.getLsbD 7 = false) (enter : code = s.cfg.enterCode) :
    s.dispatchKey code = s.advanceRow := by
  rw [State.dispatchKey, classifyKey_enter h enter]

theorem dispatchKey_of_press (h : code.getLsbD 7 = false) (press : code ≠ s.cfg.enterCode) :
    s.dispatchKey code = s.putCell (scanLookup s.cfg (code.extractLsb' 0 7)) := by
  rw [State.dispatchKey, classifyKey_press h press]

/-- The codes of the presses are those below 128 (R62). -/
theorem getLsbD_seven_eq_false_iff : code.getLsbD 7 = false ↔ code.toNat < 128 := by
  have msb : code.getLsbD 7 = code.msb := rfl
  rw [msb, BitVec.msb_eq_false_iff_two_mul_lt]
  omega

/-- A press looks its own code up in the table (R103). -/
theorem scanLookup_eq_getElem (c : Config) (h : code.toNat < 128) :
    scanLookup c (code.extractLsb' 0 7) = c.scanTab[code.toNat] := by
  have index : (code.extractLsb' 0 7).toNat = code.toNat := by
    rw [BitVec.extractLsb'_toNat, Nat.shiftRight_zero, Nat.mod_eq_of_lt h]
  simp only [scanLookup, index]

/-- With room, Enter moves the cursor to the next row (R100 step 5). -/
theorem dispatchKey_enter_of_room (hwf : s.cfg.wf) (before : s.cursor.toNat < s.cfg.len)
    (h : code.getLsbD 7 = false) (enter : code = s.cfg.enterCode) :
    s.dispatchKey code
      = .next { s with cursor := BitVec.ofNat 16 (nextRowBoundary s.cfg s.cursor.toNat) } := by
  have inside := nextRowBoundary_le_len hwf before
  rw [dispatchKey_of_enter h enter, advanceRow_eq, if_neg inside.not_gt]

/-- With room, a press stores the cell of its table entry and moves the cursor by two (R100 step 6). -/
theorem dispatchKey_press_of_room (hwf : s.cfg.wf) (room : s.cursor.toNat + 2 ≤ s.cfg.len)
    (low : code.toNat < 128) (press : code ≠ s.cfg.enterCode) :
    s.dispatchKey code = .next { s with
      mem := s.mem.writeBytes (s.cfg.tbAddr s.cursor.toNat)
        [s.cfg.scanTab[code.toNat], s.cfg.tbAttr]
      cursor := s.cursor + 2 } := by
  have moved : BitVec.ofNat 16 (s.cursor.toNat + 2) = s.cursor + 2 := by
    rw [BitVec.ofNat_add, BitVec.ofNat_toNat, BitVec.setWidth_eq]
    rfl
  rw [dispatchKey_of_press (getLsbD_seven_eq_false_iff.2 low) press, scanLookup_eq_getElem _ low,
    putCell_of_room hwf room, moved]

/-- Enter and a press alike are rejected at the end of the buffer (R100). -/
theorem dispatchKey_of_full (hwf : s.cfg.wf) (full : s.cursor.toNat = s.cfg.len)
    (h : code.getLsbD 7 = false) : s.dispatchKey code = .next (s.raise .bounds) := by
  by_cases enter : code = s.cfg.enterCode
  · rw [dispatchKey_of_enter h enter, advanceRow_eq, full, if_pos (len_lt_nextRowBoundary_len hwf)]
  · rw [dispatchKey_of_press h enter, putCell_of_full (by omega)]

/-- In a configuration of R8 the dispatch always answers a next state. -/
theorem exists_dispatchKey_eq_next (hwf : s.cfg.wf) (code : Byte) :
    ∃ t, s.dispatchKey code = .next t := by
  rcases dispatchKey_cases s code with ⟨-, release⟩ | ⟨-, -, enter⟩ | ⟨-, -, press⟩
  · exact ⟨_, release⟩
  · exact ⟨_, enter.trans (advanceRow_eq s)⟩
  · by_cases room : s.cursor.toNat + 2 ≤ s.cfg.len
    · exact ⟨_, press.trans (putCell_of_room hwf room)⟩
    · exact ⟨_, press.trans (putCell_of_full (by omega))⟩

/-! ### The outcomes -/

/-- Settles O32: the port accesses are behind, and what remains is the dispatch on the code. -/
theorem kbdServiceOutcomes : Obligations.KbdServiceOutcomes := by
  rintro s _ _ hwf deliverable rfl rfl
  have served := exec_kbdService_of_ready deliverable
  refine ⟨fun notReady => ?_, fun ready release => ?_, fun ready low enter before => ?_,
    fun ready low press room => ?_⟩
  · exact exec_kbdService_of_notReady deliverable (Bool.eq_false_iff.1 notReady)
  · exact (served ready).trans (dispatchKey_of_release release)
  · exact (served ready).trans
      (dispatchKey_enter_of_room (s := s.afterKeyRead) hwf before low enter)
  · exact ⟨_, (served ready).trans
      (dispatchKey_press_of_room (s := s.afterKeyRead) hwf room low press),
      Memory.storedAt_writeBytes _ _ _⟩

/-- Settles O34: at the end both text operations raise `F_BOUNDS`, after the port accesses. -/
theorem kbdServiceAtTheEndLosesTheKey : Obligations.KbdServiceAtTheEndLosesTheKey := by
  rintro s _ _ hwf deliverable full rfl rfl ready low
  rw [exec_kbdService_of_ready deliverable ready]
  exact dispatchKey_of_full (s := s.afterKeyRead) hwf full low

/-! ### The table -/

/-- The state with another table in its configuration. -/
abbrev State.withScanTab (s : State) (tab : Vector Byte 128) : State :=
  { s with cfg := { s.cfg with scanTab := tab } }

variable {tab : Vector Byte 128}

theorem storeBytes_withScanTab {a n : Nat} {bs : List Byte} (h : s.storeBytes a n bs = .next t) :
    (s.withScanTab tab).storeBytes a n bs = .next (t.withScanTab tab) := by
  obtain ⟨fits, rfl⟩ := storeBytes_eq_next h
  exact storeBytes_of_fits fits bs

/-- Storing a character does not look at the table. -/
theorem putCell_withScanTab {ch : Byte} (h : s.putCell ch = .next t) :
    (s.withScanTab tab).putCell ch = .next (t.withScanTab tab) := by
  unfold State.putCell at h
  split at h
  · next full =>
    cases h
    exact putCell_of_full full
  · next room =>
    obtain ⟨u, stored, moved⟩ := onNext_eq_next h
    cases moved
    exact (if_neg room).trans (congrArg (onNext · _) (storeBytes_withScanTab stored))

/-- Advancing the row does not look at the table. -/
theorem advanceRow_withScanTab (h : s.advanceRow = .next t) :
    (s.withScanTab tab).advanceRow = .next (t.withScanTab tab) := by
  rw [advanceRow_eq] at h ⊢
  cases h
  rw [apply_ite (State.withScanTab · tab)]
  rfl

/-- Tables that agree but at `ENTER_CODE` give the same dispatch: Enter does not look at the table, and
a press looks at another entry (R102). -/
theorem dispatchKey_withScanTab
    (agree : ∀ (j : Nat) (h : j < 128), j ≠ s.cfg.enterCode.toNat → tab[j] = s.cfg.scanTab[j])
    (h : s.dispatchKey code = .next t) :
    (s.withScanTab tab).dispatchKey code = .next (t.withScanTab tab) := by
  rcases dispatchKey_cases s code with ⟨high, release⟩ | ⟨low, enter, row⟩ | ⟨low, press, cell⟩
  · rw [release] at h
    cases h
    exact dispatchKey_of_release high
  · rw [row] at h
    rw [dispatchKey_of_enter (s := s.withScanTab tab) low enter]
    exact advanceRow_withScanTab h
  · have below := getLsbD_seven_eq_false_iff.1 low
    have entry : tab[code.toNat] = s.cfg.scanTab[code.toNat] :=
      agree _ below fun same => press (BitVec.eq_of_toNat_eq same)
    rw [cell, scanLookup_eq_getElem _ below, ← entry] at h
    rw [dispatchKey_of_press (s := s.withScanTab tab) low press, scanLookup_eq_getElem _ below]
    exact putCell_withScanTab h

/-- The port accesses do not look at the table, so the dispatch alone decides (R100). -/
theorem exec_kbdService_withScanTab
    (agree : ∀ (j : Nat) (h : j < 128), j ≠ s.cfg.enterCode.toNat → tab[j] = s.cfg.scanTab[j])
    (h : exec .kbdService s = .next t) :
    exec .kbdService (s.withScanTab tab) = .next (t.withScanTab tab) := by
  rcases exec_kbdService_cases s with
    ⟨refused, order⟩ | ⟨deliverable, notReady, ended⟩ | ⟨deliverable, ready, dispatched⟩
  · rw [order] at h
    cases h
    exact exec_kbdService_of_notDeliverable refused
  · rw [ended] at h
    cases h
    exact exec_kbdService_of_notReady deliverable notReady
  · rw [dispatched] at h
    rw [exec_kbdService_of_ready (s := s.withScanTab tab) deliverable ready]
    exact dispatchKey_withScanTab (s := s.afterKeyRead) agree h

/-- A release, or no code at all, leaves buffer and cursor alone (R102). -/
theorem exec_kbdService_of_release (high : (s.answerAt 1).getLsbD 7 = true)
    (h : exec .kbdService s = .next t) : t.mem = s.mem ∧ t.cursor = s.cursor := by
  rcases exec_kbdService_cases s with ⟨-, order⟩ | ⟨-, -, ended⟩ | ⟨-, -, dispatched⟩
  · rw [order] at h
    cases h
    exact ⟨rfl, rfl⟩
  · rw [ended] at h
    cases h
    exact ⟨rfl, rfl⟩
  · rw [dispatched, dispatchKey_of_release high] at h
    cases h
    exact ⟨rfl, rfl⟩

/-- Settles O36: a release ends the service after its reads, and Enter is told from a press before the
table is looked at. -/
theorem releaseAndEnterIgnoreTheTable : Obligations.ReleaseAndEnterIgnoreTheTable :=
  ⟨fun _ _ h high => exec_kbdService_of_release high h,
    fun _ _ _ agree => exec_kbdService_withScanTab agree⟩

/-! ### Admission -/

/-- In a configuration of R8 the command always answers a next state. -/
theorem exists_exec_kbdService_eq_next (hwf : s.cfg.wf) : ∃ t, exec .kbdService s = .next t := by
  rcases exec_kbdService_cases s with ⟨-, order⟩ | ⟨-, -, ended⟩ | ⟨-, -, dispatched⟩
  · exact ⟨_, order⟩
  · exact ⟨_, ended⟩
  · obtain ⟨t, ht⟩ := exists_dispatchKey_eq_next (s := s.afterKeyRead) hwf (s.answerAt 1)
    exact ⟨t, dispatched.trans ht⟩

/-- An admitted service can set `F_BOUNDS` only, which is another bit than `F_ORDER` (R18). -/
theorem exec_kbdService_order_of_deliverable (deliverable : s.Deliverable)
    (h : exec .kbdService s = .next t) : t.fault.getLsbD 1 = s.fault.getLsbD 1 := by
  rw [exec_kbdService_of_deliverable deliverable] at h
  have endFault : s.endOfInterrupt.fault = s.fault := rfl
  rcases serveKeyboard_completes_or_bounds h with same | ⟨bounds, -, -⟩
  · rw [same, endFault]
  · rw [bounds, endFault, BitVec.getLsbD_or]
    exact Bool.or_false _

/-- Under the invariant `S_DONE` implies the two status bits (R98). -/
theorem deliverable_iff_of_inv (inv : s.Inv) : s.Deliverable ↔ s.seq = 6 := by
  obtain ⟨-, gateOfIdt, idtOfDone⟩ := inv.stageOk
  constructor
  · rintro ⟨done, -, -⟩
    exact done
  · intro done
    have loaded := idtOfDone done
    exact ⟨done, gateOfIdt loaded, loaded⟩

/-- Settles O33: the admission test comes before the first port access. -/
theorem kbdServiceRefusedUnlessDeliverable : Obligations.KbdServiceRefusedUnlessDeliverable := by
  refine ⟨fun s => exec_kbdService_of_notDeliverable, fun s hwf deliverable => ?_,
    fun s => deliverable_iff_of_inv⟩
  obtain ⟨t, ht⟩ := exists_exec_kbdService_eq_next hwf
  exact ⟨t, ht, exec_kbdService_order_of_deliverable deliverable ht⟩

end Sys2Proof.Machine
end

section
/-! PROOF. The input list (R113, R116, R124), and the delivery of a key event: what each outcome of the
agent's two tests is, and which of them can come about in `S_DONE` (R112 to R115). -/

namespace Sys2Proof.Machine

variable {s t : State}

/-! ### The empty schedule, and `CPU_IF` -/

/-- Settles O9: the other outcomes of a step all take an input. -/
theorem idleStepChangesNothing : Obligations.IdleStepChangesNothing := by
  intro s noInput
  rcases step_cases s with ⟨-, idle⟩ | ⟨e, rest, hinputs, -⟩
  · exact idle
  · rw [noInput] at hinputs; cases hinputs

/-- A delivery does not touch `CPU_IF` (R113, R114). -/
theorem deliver_cpuIf (h : deliver s = .next t) : t.cpuIf = s.cpuIf := by
  rcases deliver_cases s with ⟨-, idle⟩ | ⟨-, -, service⟩ | ⟨-, -, bad⟩
  · rw [idle] at h; cases h; rfl
  · rw [service] at h
    obtain ⟨-, -, cpuIf⟩ := exec_agents h
    exact cpuIf
  · rw [bad] at h; cases h; rfl

/-- Settles O10: of the agents' actions the commands and the delivery leave `CPU_IF` alone. -/
theorem onlyTheHostSetsCpuIf : Obligations.OnlyTheHostSetsCpuIf := by
  refine ⟨fun s on rest => step_of_inputs_cons, fun s t h notSet => ?_⟩
  rcases step_cases s with ⟨-, idle⟩ | ⟨e, rest, hinputs, hact⟩
  · rw [idle] at h; cases h; rfl
  · rcases hact with ⟨w, i, -, -, run⟩ | ⟨w, r, -, -, illegal⟩ | ⟨on, rfl, -⟩ | ⟨-, offer⟩
    · rw [run] at h
      obtain ⟨-, -, cpuIf⟩ := exec_agents h
      exact cpuIf
    · rw [illegal] at h; cases h; rfl
    · exact absurd hinputs (notSet on rest)
    · rw [offer] at h
      exact (deliver_cpuIf h :)

/-! ### The outcomes of an offered key event -/

/-- With a condition of R113 missing the agent has no step. -/
theorem deliver_of_not_enabled (h : ¬ s.DeliveryEnabled) : deliver s = .next s :=
  if_neg h

/-- Enabled and leading to the service, the delivery is the service after `IN_SERVICE` is set (R113). -/
theorem deliver_of_leads (enabled : s.DeliveryEnabled) (leads : s.DeliveryLeadsToService) :
    deliver s = exec .kbdService s.takeInterrupt :=
  (if_pos enabled).trans (if_pos leads)

/-- Enabled and not leading to the service, the delivery is the outcome of R114. -/
theorem deliver_of_not_leads (enabled : s.DeliveryEnabled) (leads : ¬ s.DeliveryLeadsToService) :
    deliver s = .next s.badGate :=
  (if_pos enabled).trans (if_neg leads)

/-- Settles O37: both tests of the delivery agent pass. -/
theorem enabledKeyEventRunsTheService : Obligations.EnabledKeyEventRunsTheService :=
  fun _ _ hinputs done idle accepts leads =>
    (step_of_inputs_cons hinputs).trans (deliver_of_leads ⟨done, idle, accepts⟩ leads)

/-- Settles O38: the first test fails. -/
theorem keyEventWithoutDeliveryDoesNothing : Obligations.KeyEventWithoutDeliveryDoesNothing := by
  intro s rest hinputs missing
  refine (step_of_inputs_cons hinputs).trans (deliver_of_not_enabled ?_)
  rintro ⟨done, idle, accepts⟩
  rcases missing with notDone | busy | masked
  · exact notDone done
  · exact Bool.false_ne_true (idle.symm.trans busy)
  · exact Bool.false_ne_true (masked.symm.trans accepts)

/-- Settles O39: the first test passes, and the comparison of R114 fails. -/
theorem badGateRaisesVectorFault : Obligations.BadGateRaisesVectorFault := by
  intro s rest hinputs done idle accepts wrong
  refine (step_of_inputs_cons hinputs).trans (deliver_of_not_leads ⟨done, idle, accepts⟩ ?_)
  rintro ⟨-, bytes, idtr⟩
  rcases wrong with wrongBytes | wrongLimit | wrongBase
  · exact wrongBytes bytes
  · exact wrongLimit (congrArg Idtr.limit idtr)
  · exact wrongBase (congrArg Idtr.base idtr)

/-! ### Delivery in `S_DONE` -/

/-- Settles O40: the latch and `IDTR` are those of the configuration, so of the delivery's tests only the
comparison of the eight bytes is open. -/
theorem configuredKeyIsRoutedToItsGate : Obligations.ConfiguredKeyIsRoutedToItsGate := by
  intro s inv done
  obtain ⟨latches, -⟩ := inv.shadowsOk
  obtain ⟨-, -, loaded⟩ := inv.stageOk
  obtain ⟨voffPri, -⟩ := latches (by rw [done]; decide)
  obtain ⟨limit, base⟩ := inv.idtrOk (loaded done)
  have routed : s.routedVector = s.cfg.kbdVector := by
    rw [State.routedVector, voffPri, Config.kbdVector]
  have inside : 8 * s.cfg.kbdVector + 7 ≤ s.idtr.limit.toNat := by
    have bound := Config.kbdVector_lt inv.cfgWf
    have value : (0x07FF : Half).toNat = 2047 := rfl
    rw [limit]
    omega
  have idtr : s.idtr = ⟨Config.idtLimit, s.cfg.idtBase⟩ := congrArg₂ Idtr.mk limit base
  refine ⟨routed, inside, ?_, fun ⟨_, bytes, _⟩ => bytes, fun bytes => ⟨⟨routed, ?_⟩, bytes, idtr⟩⟩
  · rw [base, routed]; rfl
  · rwa [routed]

/-- A dispatch on a code leaves `IN_SERVICE` as the acknowledgment set it (R100). -/
theorem dispatchKey_inService {code : Byte} (h : s.dispatchKey code = .next t) :
    t.inService = s.inService := by
  rcases dispatchKey_cases s code with ⟨-, release⟩ | ⟨-, -, enter⟩ | ⟨-, -, press⟩
  · rw [release] at h; cases h; rfl
  · rw [enter, advanceRow_eq] at h
    cases h
    split <;> rfl
  · rw [press] at h
    rcases putCell_eq_next h with ⟨-, rfl⟩ | ⟨-, rfl⟩ <;> rfl

/-- An admitted service ends acknowledged, whatever the keyboard answers (R115). -/
theorem exec_kbdService_inService (deliverable : s.Deliverable)
    (h : exec .kbdService s = .next t) : t.inService = false := by
  rcases exec_kbdService_cases s with ⟨refused, -⟩ | ⟨-, -, ended⟩ | ⟨-, -, dispatched⟩
  · exact absurd deliverable refused
  · rw [ended] at h; cases h; rfl
  · rw [dispatched] at h
    exact (dispatchKey_inService h :)

/-- Settles O41: the step is the service, which the invariant admits in `S_DONE`. -/
theorem deliveredServiceIsAcknowledged : Obligations.DeliveredServiceIsAcknowledged := by
  rintro s rest inv hinputs ⟨done, idle, accepts⟩ leads
  have served := enabledKeyEventRunsTheService s rest hinputs done idle accepts leads
  obtain ⟨t, ht⟩ := exists_exec_kbdService_eq_next
    (s := { s with inputs := rest, inService := true }) inv.cfgWf
  have deliverable := (deliverable_iff_of_inv inv).2 done
  obtain ⟨seq, -⟩ := State.controllers_eq_iff.1 (execKbdService_controllers ht)
  obtain ⟨-, inputs, -⟩ := exec_agents ht
  have acknowledged := exec_kbdService_inService (s := { s with inputs := rest, inService := true })
    deliverable ht
  exact ⟨t, served.trans ht, acknowledged, seq.trans done, inputs⟩

end Sys2Proof.Machine
end

section
/-! PROOF. The conditions of the two faults of commands: `F_BOUNDS` (R106) and `F_ORDER` (R107). -/

namespace Sys2Proof.Machine

variable {s t : State} {i : Instr}

/-! ### `F_BOUNDS` -/

/-- A command that moves the cursor forward has not just raised a fault (R11). -/
theorem exec_ne_raise_of_cursor_lt (h : exec i s = .next t) (moved : s.cursor.toNat < t.cursor.toNat)
    (c : Cause) : exec i s ≠ .next (s.raise c) := by
  intro raised
  rw [raised] at h
  cases h
  exact moved.false

/-- Settles O29: before the end both commands complete and move the cursor. -/
theorem boundsFaultExactlyAtTheEnd : Obligations.BoundsFaultExactlyAtTheEnd := by
  rintro s ch hwf ⟨inside, even⟩
  have lenEven := Config.len_even s.cfg
  refine ⟨⟨fun raised => ?_, fun full => exec_tbPutc_of_full ch (by omega)⟩,
    ⟨fun raised => ?_, fun full => ?_⟩, fun t h => by rw [clearBuffer_eq_next h]⟩
  · by_contra before
    obtain ⟨m, c, stored, moved, -⟩ := exec_tbPutc_of_room ch hwf (by omega)
    exact exec_ne_raise_of_cursor_lt stored (by dsimp only; omega) .bounds raised
  · by_contra before
    obtain ⟨t, advanced, -, moved, -⟩ := newlineReachesTheNextRow s hwf (by omega)
    exact exec_ne_raise_of_cursor_lt advanced moved .bounds raised
  · exact exec_tbNewline_of_full ((len_lt_nextRowBoundary_iff hwf inside).2 full)

/-! ### `F_ORDER` -/

/-- The condition of R107 on the `k`-th command of `PIC_CONFIG`: another stage than `k`, or, for the
last, a table not loaded. -/
theorem orderFaults_picConfig_iff {k : Nat} (hi : picConfig[k]? = some i) (s : State) :
    OrderFaults i s ↔ s.seq.toNat ≠ k ∨ (k = 5 ∧ s.idtLoaded = false) := by
  have stage (q : BitVec 3) : s.seq ≠ q ↔ s.seq.toNat ≠ q.toNat := BitVec.toNat_ne_iff_ne.symm
  match k, hi with
  | 0, rfl | 1, rfl | 2, rfl | 3, rfl | 4, rfl | 5, rfl => simp [OrderFaults, stage]

/-- Under its condition of R107 a command only raises `F_ORDER`. -/
theorem exec_of_orderFaults (h : OrderFaults i s) : exec i s = .next (s.raise .order) := by
  by_cases hi : i ∈ picConfig
  · obtain ⟨k, hk⟩ := List.getElem?_of_mem hi
    obtain ⟨-, refused⟩ := eachPicCommandHasOneStage s k i hk
    exact refused ((orderFaults_picConfig_iff hk s).1 h)
  · cases i with
    | gateSet sel haddr => exact exec_gateSet_of_done h sel haddr
    | idtLoad => exact if_pos h
    | picIcw1 | picIcw2 | picIcw3 | picIcw4 | picMaskAll | picUnmaskKbd =>
      exact absurd (by decide) hi
    | tbClear | tbPutc | tbNewline => exact h.elim
    | kbdService => exact exec_kbdService_of_notDeliverable h

/-- `F_BOUNDS` is another bit of `FAULT` than `F_ORDER` (R18). -/
theorem order_bit_of_completes_or_bounds (h : t.fault = s.fault ∨ t = s.raise .bounds) :
    t.fault.getLsbD 1 = s.fault.getLsbD 1 := by
  rcases h with same | rfl
  · rw [same]
  · rw [State.raise_fault, BitVec.getLsbD_or]
    exact Bool.or_false _

/-- Outside its condition of R107 a command does not set `F_ORDER`. -/
theorem exec_order_of_not_orderFaults (admitted : ¬ OrderFaults i s) (h : exec i s = .next t) :
    t.fault.getLsbD 1 = s.fault.getLsbD 1 := by
  by_cases hi : i ∈ picConfig
  · obtain ⟨k, hk⟩ := List.getElem?_of_mem hi
    rw [orderFaults_picConfig_iff hk, not_or, not_and, not_not] at admitted
    obtain ⟨own, loaded⟩ := admitted
    obtain ⟨u, run, -, fault⟩ :=
      exec_picConfig_of_ownStage hk own fun last => Bool.eq_true_of_not_eq_false (loaded last)
    rw [run] at h
    cases h
    rw [fault]
  · cases i with
    | gateSet sel haddr =>
      rcases execGateSet_eq_next h with ⟨done, -⟩ | ⟨-, rfl⟩
      · exact absurd done admitted
      · rfl
    | idtLoad =>
      rw [show exec .idtLoad s = _ from if_neg admitted] at h
      cases h
      rfl
    | picIcw1 | picIcw2 | picIcw3 | picIcw4 | picMaskAll | picUnmaskKbd =>
      exact absurd (by decide) hi
    | tbClear => rw [clearBuffer_eq_next h]
    | tbPutc ch => exact order_bit_of_completes_or_bounds (putCell_completes_or_bounds h)
    | tbNewline => exact order_bit_of_completes_or_bounds (advanceRow_completes_or_bounds h)
    | kbdService => exact exec_kbdService_order_of_deliverable (not_not.1 admitted) h

/-- Settles O44: refused under the condition of R107, admitted otherwise. -/
theorem orderFaultExactlyWhenNotAdmitted : Obligations.OrderFaultExactlyWhenNotAdmitted :=
  fun _ _ => ⟨exec_of_orderFaults, fun admitted _ => exec_order_of_not_orderFaults admitted⟩

end Sys2Proof.Machine
end

section
/-! PROOF. The run of the machine as a whole (R130, R137): in a configuration of R8 no step stops, so
every run goes on to its end and keeps the invariant; and an admitted service acknowledges before it
does anything else (R133). -/

namespace Sys2Proof.Machine

variable {s t : State}

/-! ### The acknowledgment -/

/-- A dispatch on a code changes nothing but the text buffer, the cursor and `FAULT` (R100 steps 4 to
6). -/
theorem dispatchKey_frame {code : Byte} (h : s.dispatchKey code = .next t) :
    t = { s with mem := t.mem, cursor := t.cursor, fault := t.fault } := by
  rcases dispatchKey_cases s code with ⟨-, release⟩ | ⟨-, -, enter⟩ | ⟨-, -, press⟩
  · rw [release] at h; cases h; rfl
  · rw [enter, advanceRow_eq] at h
    cases h
    split <;> rfl
  · rw [press] at h
    rcases putCell_eq_next h with ⟨-, rfl⟩ | ⟨-, rfl⟩ <;> rfl

/-- An admitted service logs the acknowledgment, then the status read, then at most the data read
(R100). -/
theorem exec_kbdService_portLog (deliverable : s.Deliverable) (h : exec .kbdService s = .next t) :
    ∃ reads : List PortAccess,
      t.portLog = s.portLog ++ ⟨.write, s.cfg.pic1Cmd, s.cfg.eoiCmd⟩ :: reads ∧
      ∀ a ∈ reads, a.dir = .read := by
  rcases exec_kbdService_cases s with ⟨refused, -⟩ | ⟨-, -, ended⟩ | ⟨-, -, dispatched⟩
  · exact absurd deliverable refused
  · rw [ended] at h
    cases h
    exact ⟨[_], rfl, by simp⟩
  · rw [dispatched] at h
    exact ⟨[_, _], congrArg State.portLog (dispatchKey_frame h), by simp⟩

/-- Settles O35: the service always completes, and the acknowledgment is its first port access. -/
theorem acknowledgmentComesFirst : Obligations.AcknowledgmentComesFirst := by
  intro s hwf deliverable
  obtain ⟨t, served⟩ := exists_exec_kbdService_eq_next hwf
  obtain ⟨reads, log, onlyReads⟩ := exec_kbdService_portLog deliverable served
  exact ⟨t, reads, served, log, onlyReads, exec_kbdService_inService deliverable served⟩

/-! ### No step stops -/

/-- A `PIC_*` command answers a next state in every stage (R77). -/
theorem exists_exec_picConfig_eq_next {k : Nat} {i : Instr} (hi : picConfig[k]? = some i)
    (s : State) : ∃ t, exec i s = .next t := by
  obtain ⟨ownStage, refused⟩ := eachPicCommandHasOneStage s k i hi
  by_cases outOfOrder : s.seq.toNat ≠ k ∨ (k = 5 ∧ s.idtLoaded = false)
  · exact ⟨_, refused outOfOrder⟩
  · rw [not_or, not_not, not_and] at outOfOrder
    obtain ⟨stage, loaded⟩ := outOfOrder
    obtain ⟨t, run, -⟩ := ownStage stage fun last => Bool.eq_true_of_not_eq_false (loaded last)
    exact ⟨t, run⟩

/-- In a configuration of R8 every command answers a next state: the regions lie in the address space,
so no store stops the machine (R63). -/
theorem exists_exec_eq_next (hwf : s.cfg.wf) (i : Instr) : ∃ t, exec i s = .next t := by
  by_cases hi : i ∈ picConfig
  · obtain ⟨k, hk⟩ := List.getElem?_of_mem hi
    exact exists_exec_picConfig_eq_next hk s
  · cases i with
    | gateSet sel haddr =>
      cases done : s.gateDone with
      | true => exact ⟨_, exec_gateSet_of_done done sel haddr⟩
      | false => exact ⟨_, exec_gateSet_of_notDone hwf done sel haddr⟩
    | idtLoad => exact ⟨_, execIdtLoad_eq s⟩
    | picIcw1 | picIcw2 | picIcw3 | picIcw4 | picMaskAll | picUnmaskKbd =>
      exact absurd (by decide) hi
    | tbClear => exact ⟨_, clearBuffer_of_wf hwf⟩
    | tbPutc ch =>
      rcases Nat.lt_or_ge s.cfg.len (s.cursor.toNat + 2) with full | room
      · exact ⟨_, putCell_of_full full⟩
      · exact ⟨_, putCell_of_room hwf room⟩
    | tbNewline => exact ⟨_, advanceRow_eq s⟩
    | kbdService => exact exists_exec_kbdService_eq_next hwf

/-- In a configuration of R8 an offered key event answers a next state (R113, R114). -/
theorem exists_deliver_eq_next (hwf : s.cfg.wf) : ∃ t, deliver s = .next t := by
  rcases deliver_cases s with ⟨-, idle⟩ | ⟨-, -, service⟩ | ⟨-, -, bad⟩
  · exact ⟨_, idle⟩
  · obtain ⟨t, served⟩ := exists_exec_kbdService_eq_next (s := s.takeInterrupt) hwf
    exact ⟨t, service.trans served⟩
  · exact ⟨_, bad⟩

/-- Settles O48: of the agents' actions only a command stores, and a command's store fits. -/
theorem everyStepCompletes : Obligations.EveryStepCompletes := by
  intro s hwf
  rcases step_cases s with ⟨-, idle⟩ | ⟨e, rest, -, hact⟩
  · exact ⟨_, idle⟩
  · have taken : ({ s with inputs := rest } : State).cfg.wf := hwf
    rcases hact with ⟨w, i, -, -, run⟩ | ⟨w, r, -, -, illegal⟩ | ⟨on, -, setIf⟩ | ⟨-, offer⟩
    · rw [run]; exact exists_exec_eq_next taken i
    · exact ⟨_, illegal⟩
    · exact ⟨_, setIf⟩
    · rw [offer]; exact exists_deliver_eq_next taken

/-- Settles O49: by the induction over runs; the invariant holds at reset, and it contains the
configuration's constraints, under which a step completes. -/
theorem everyRunEndsInTheInvariant : Obligations.EveryRunEndsInTheInvariant := by
  intro c ins answers k hwf
  refine run_of_step (fun s inv => ?_) k (startOfRun_inv hwf ins answers)
  obtain ⟨t, ht⟩ := everyStepCompletes s inv.cfgWf
  exact ⟨t, ht, stepKeepsTheInvariant s t inv ht⟩

end Sys2Proof.Machine
end

section
/-! PROOF. `BOOT` from reset (R127, R129). Commands scheduled one by one run as one sequence, because no
command looks at the schedule; the sequence of BOOT is then the composition of the results of its parts,
and what the end state's memory reads as follows from the three runs of bytes stored. -/

namespace Sys2Proof.Machine

variable {s t : State} {ins : List Input} {out out' : Out}

/-! ### No command looks at the schedule -/

/-- The state with other inputs still to come. -/
abbrev State.withInputs (s : State) (ins : List Input) : State := { s with inputs := ins }

/-- The outcome with other inputs still to come in its next state. -/
def outWithInputs (ins : List Input) (out : Out) : Out :=
  onNext out fun t => .next (t.withInputs ins)

@[simp] theorem outWithInputs_next (ins : List Input) (t : State) :
    outWithInputs ins (.next t) = .next (t.withInputs ins) := rfl

/-- A choice that does not depend on the schedule. -/
theorem ite_outWithInputs {p : Prop} [Decidable p] {q q' : Out} (hpos : out' = outWithInputs ins out)
    (hneg : q' = outWithInputs ins q) :
    (if p then out' else q') = outWithInputs ins (if p then out else q) := by
  split
  · exact hpos
  · exact hneg

/-- A store followed by register updates: whether it fits does not depend on the schedule. -/
theorem storeBytes_withInputs {a n : Nat} {bs : List Byte} {f : State → State}
    (hf : ∀ u, f (u.withInputs ins) = (f u).withInputs ins) :
    (onNext ((s.withInputs ins).storeBytes a n bs) fun u => .next (f u))
      = outWithInputs ins (onNext (s.storeBytes a n bs) fun u => .next (f u)) := by
  by_cases fits : a + n ≤ 2 ^ 32
  · simp only [storeBytes_of_fits fits, onNext_next, outWithInputs_next, ← hf]
  · simp only [State.storeBytes, if_neg fits]
    rfl

theorem inStage_withInputs (s : State) (ins : List Input) (req : BitVec 3)
    (hbody : out' = outWithInputs ins out) :
    (s.withInputs ins).inStage req out' = outWithInputs ins (s.inStage req out) :=
  ite_outWithInputs hbody rfl

theorem putCell_withInputs (s : State) (ins : List Input) (ch : Byte) :
    (s.withInputs ins).putCell ch = outWithInputs ins (s.putCell ch) :=
  ite_outWithInputs rfl (storeBytes_withInputs fun _ => rfl)

theorem advanceRow_withInputs (s : State) (ins : List Input) :
    (s.withInputs ins).advanceRow = outWithInputs ins s.advanceRow :=
  ite_outWithInputs rfl rfl

theorem dispatchKey_withInputs (s : State) (ins : List Input) (code : Byte) :
    (s.withInputs ins).dispatchKey code = outWithInputs ins (s.dispatchKey code) := by
  simp only [State.dispatchKey]
  cases classifyKey s.cfg code with
  | release => rfl
  | enter => exact advanceRow_withInputs s ins
  | press i => exact putCell_withInputs s ins _

theorem serveKeyboard_withInputs (s : State) (ins : List Input) :
    (s.withInputs ins).serveKeyboard = outWithInputs ins s.serveKeyboard :=
  ite_outWithInputs
    (dispatchKey_withInputs ((s.afterPortRead s.cfg.kbdStatus).afterPortRead s.cfg.kbdData) ins _)
    rfl

/-- A command does the same whatever is scheduled after it, and leaves the schedule alone (log 4). -/
theorem exec_withInputs (i : Instr) (s : State) (ins : List Input) :
    exec i (s.withInputs ins) = outWithInputs ins (exec i s) := by
  cases i with
  | gateSet sel haddr => exact ite_outWithInputs rfl (storeBytes_withInputs fun _ => rfl)
  | idtLoad => exact ite_outWithInputs rfl rfl
  | picIcw1 => exact inStage_withInputs s ins sIdle rfl
  | picIcw2 => exact inStage_withInputs s ins sInit rfl
  | picIcw3 => exact inStage_withInputs s ins sRemap rfl
  | picIcw4 => exact inStage_withInputs s ins sCascade rfl
  | picMaskAll => exact inStage_withInputs s ins sMode rfl
  | picUnmaskKbd => exact inStage_withInputs s ins sMasked (ite_outWithInputs rfl rfl)
  | tbClear => exact storeBytes_withInputs fun _ => rfl
  | tbPutc ch => exact putCell_withInputs s ins ch
  | tbNewline => exact advanceRow_withInputs s ins
  | kbdService => exact ite_outWithInputs (serveKeyboard_withInputs s.endOfInterrupt ins) rfl

/-! ### A schedule runs as a sequence -/

/-- The first command of a schedule runs in one step, and the rest stays scheduled. -/
theorem step_schedule_cons {i : Instr} (is : List Instr) (h : exec i s = .next t) :
    step (s.schedule (i :: is)) = .next (t.schedule is) := by
  have rest : t.inputs = s.inputs := by
    obtain ⟨-, inputs, -⟩ := exec_agents h
    exact inputs
  calc step (s.schedule (i :: is))
      = issue (encode i) (s.schedule is) :=
        step_of_inputs_cons (e := .command (encode i)) (rest := (s.schedule is).inputs) rfl
    _ = exec i (s.schedule is) := issue_of_ok (decode_encode i)
    _ = .next (t.withInputs (s.schedule is).inputs) := by
        rw [State.schedule, exec_withInputs, h, outWithInputs_next]
    _ = .next (t.schedule is) := by rw [State.schedule_inputs, State.schedule, rest]

/-- Commands scheduled one by one, a step for each, do what the sequence does. -/
theorem run_schedule {is : List Instr} (h : execAll is s = .next t) :
    Sys2Proof.core.run is.length (s.schedule is) = .next t := by
  induction is generalizing s with
  | nil => exact h
  | cons i is ih =>
    obtain ⟨u, first, others⟩ := onNext_eq_next h
    have stepped : Sys2Proof.core.step (s.schedule (i :: is)) = .next (u.schedule is) :=
      step_schedule_cons is first
    simp only [List.length_cons, Host.Core.run, stepped]
    exact ih others

/-! ### The parts of BOOT -/

/-- `IDT_SETUP` with neither flag set installs the gate and loads the table (R67). -/
theorem execAll_idtSetup (hwf : s.cfg.wf) (notDone : s.gateDone = false)
    (notLoaded : s.idtLoaded = false) (sel : Half) (haddr : Addr) :
    execAll (idtSetup sel haddr) s = .next { s with
      mem := s.mem.writeBytes s.cfg.kbdEntry (gateBytes s.cfg sel haddr)
      gateDone := true
      idtr := ⟨0x07FF, s.cfg.idtBase⟩
      idtLoaded := true } := by
  rw [idtSetup, execAll_cons_of_next (exec_gateSet_of_notDone hwf notDone sel haddr)]
  obtain ⟨-, load⟩ := idtLoadSetsIdtr
  obtain ⟨loaded, -⟩ := load { s with
    mem := s.mem.writeBytes s.cfg.kbdEntry (gateBytes s.cfg sel haddr), gateDone := true }
  rw [execAll_cons_of_next (loaded rfl notLoaded), execAll]

/-- The state R129 lists, up to what the text commands leave in memory and cursor: every other register
is that of reset, or what `IDT_SETUP` and `PIC_CONFIG` write. -/
def State.booted (c : Config) (m : Memory) (cursor : BitVec 16) : State :=
  { State.resetWith c with
    mem := m.writeBytes c.kbdEntry (gateBytes c c.kernelCs c.isrEntry)
    cursor := cursor
    gateDone := true
    idtr := ⟨0x07FF, c.idtBase⟩
    idtLoaded := true
    seq := sDone
    imrPri := 0xFD
    imrSec := 0xFF
    voffPriL := c.voffPri
    voffSecL := c.voffSec
    draws := 1
    portLog :=
      [ ⟨.write, c.pic1Cmd, c.icw1⟩, ⟨.write, c.pic2Cmd, c.icw1⟩,
        ⟨.write, c.pic1Data, c.voffPri⟩, ⟨.write, c.pic2Data, c.voffSec⟩,
        ⟨.write, c.pic1Data, c.icw3Pri⟩, ⟨.write, c.pic2Data, c.icw3Sec⟩,
        ⟨.write, c.pic1Data, c.icw4⟩, ⟨.write, c.pic2Data, c.icw4⟩,
        ⟨.write, c.pic1Data, 0xFF⟩, ⟨.write, c.pic2Data, 0xFF⟩,
        ⟨.write, c.pic1Data, 0xFD⟩ ] }

/-- The banner is stored from the first cell on, over a cleared buffer, in a memory that is empty
otherwise (R127). -/
def BannerStored (c : Config) (m : Memory) : Prop :=
  Memory.StoredAt (Memory.writeBytes [] (c.tbAddr 0) (clearedBuffer c)) m (c.tbAddr 0)
    (interleave c.tbAttr c.banner)

/-- BOOT as one sequence from reset (R127). -/
theorem execAll_boot {c : Config} (hwf : c.wf) (fits : 2 * c.banner.length ≤ c.len) :
    ∃ (m : Memory) (cursor : BitVec 16),
      execAll (boot c) (State.resetWith c) = .next (State.booted c m cursor) ∧
      cursor.toNat = 2 * c.banner.length ∧
      BannerStored c m := by
  have cleared : execAll [.tbClear] (State.resetWith c) = _ :=
    execAll_cons_of_next (clearBuffer_of_wf (s := State.resetWith c) hwf)
  obtain ⟨m, cursor, written, moved, stored⟩ := execAll_tbWrite_of_fits (text := c.banner)
    (s := { State.resetWith c with
      mem := Memory.writeBytes [] (c.tbAddr 0) (clearedBuffer c), cursor := 0 }) hwf
    ((Nat.zero_add _).trans_le fits)
  refine ⟨m, cursor, ?_, moved.trans (Nat.zero_add _), stored⟩
  have untilBanner := (execAll_append_of_next cleared).trans written
  have untilTable := (execAll_append_of_next untilBanner).trans
    (execAll_idtSetup hwf rfl rfl c.kernelCs c.isrEntry)
  exact (execAll_append_of_next untilTable).trans (picConfigAppendsElevenWrites _ rfl rfl)

/-! ### What the memory reads as after BOOT -/

variable {c : Config} {m : Memory} {cursor : BitVec 16} {o : Nat}

@[simp] theorem length_interleave (attr : Byte) (text : List Byte) :
    (interleave attr text).length = 2 * text.length := by
  induction text with
  | nil => rfl
  | cons ch text ih => simp only [interleave, List.length_cons, ih, Nat.mul_add_one]

/-- A byte of a stored run reads as the byte of the run. -/
theorem Memory.StoredAt.read {m' : Memory} {a k : Nat} {bs : List Byte}
    (h : Memory.StoredAt m m' a bs) (hk : k < bs.length) : m'.read (a + k) = bs[k]? := by
  obtain ⟨run, -⟩ := h
  have byte := congrArg (·[k]?) run
  simpa [Memory.readBytes, hk] using byte

theorem BannerStored.read_banner (h : BannerStored c m) (inBanner : o < 2 * c.banner.length) :
    m.read (c.tbAddr o) = (interleave c.tbAttr c.banner)[o]? :=
  Memory.StoredAt.read h (by rwa [length_interleave])

/-- Behind the banner the cells are as `TB_CLEAR` left them (R90). -/
theorem BannerStored.read_blank (h : BannerStored c m) (behind : 2 * c.banner.length ≤ o)
    (inside : o < c.len) :
    m.read (c.tbAddr o) = some (if o % 2 = 0 then c.space else c.tbAttr) := by
  obtain ⟨-, kept⟩ := h
  rw [kept (c.tbAddr o) (by simp only [length_interleave, Config.tbAddr]; omega)]
  exact Memory.read_writeBytes_of_getElem? [] (c.tbAddr 0) (getElem?_clearedBuffer c inside)

/-- Outside the buffer nothing is written: a banner that fits stays inside it (R92). -/
theorem BannerStored.read_of_not_inTb (h : BannerStored c m) (fits : 2 * c.banner.length ≤ c.len)
    {a : Nat} (outside : ¬ InTb c a) : m.read a = none := by
  obtain ⟨-, kept⟩ := h
  have beyond : a < c.tbAddr 0 ∨ c.tbAddr 0 + (interleave c.tbAttr c.banner).length ≤ a := by
    simp only [length_interleave, InTb, Config.tbAddr] at outside ⊢
    omega
  rw [kept a beyond, read_writeBytes_of_not_inTb [] (by simp) outside, Memory.read_nil]

/-- The gate reaches nothing outside the keyboard entry (R75). -/
theorem read_booted_of_not_inKbdGate {a : Nat} (outside : ¬ InKbdGate c a) :
    (State.booted c m cursor).mem.read a = m.read a := by
  refine Memory.read_writeBytes_outside _ _ _ _ ?_
  rw [length_gateBytes]
  simp only [InKbdGate] at outside
  omega

/-- The display reader sees what the text commands stored: the gate lies elsewhere (R8). -/
theorem displayByte_booted (hwf : c.wf) (inside : o < c.len) :
    (State.booted c m cursor).displayByte o = m.read (c.tbAddr o) := by
  have inTb : InTb c (c.tbAddr o) := by simp only [InTb, Config.tbAddr]; omega
  exact read_booted_of_not_inKbdGate fun inGate => not_inTb_of_inKbdGate hwf inGate inTb

theorem readBytes_kbdEntry_booted (c : Config) (m : Memory) (cursor : BitVec 16) :
    (State.booted c m cursor).mem.readBytes c.kbdEntry 8
      = (gateBytes c c.kernelCs c.isrEntry).map some :=
  Memory.readBytes_writeBytes m c.kbdEntry (gateBytes c c.kernelCs c.isrEntry)

/-- A delivery after BOOT finds the vector routed inside the limit, and the gate of R114 (log 11). -/
theorem booted_deliveryLeadsToService (hwf : c.wf) (m : Memory) (cursor : BitVec 16) :
    (State.booted c m cursor).DeliveryLeadsToService := by
  have bound := Config.kbdVector_lt hwf
  have inside : 8 * c.kbdVector + 7 ≤ (0x07FF : Half).toNat := by
    rw [show (0x07FF : Half).toNat = 2047 from rfl]
    omega
  exact ⟨⟨rfl, inside⟩, readBytes_kbdEntry_booted c m cursor, rfl⟩

/-- Settles O56: the schedule runs as the sequence, whose end state has the registers of R129; the buffer
holds the banner over the cleared cells, and the entry the gate. -/
theorem bootReachesTheConfiguredState : Obligations.BootReachesTheConfiguredState := by
  intro c hwf fits
  obtain ⟨m, cursor, booted, moved, stored⟩ := execAll_boot hwf fits
  refine ⟨_, run_schedule booted, moved, fun o inBanner => ?_, fun o behind inside => ?_,
    readBytes_kbdEntry_booted c m cursor, fun a notTb notGate => ?_,
    rfl, rfl, rfl, rfl, rfl, rfl, rfl, rfl, rfl, rfl, rfl, rfl,
    booted_deliveryLeadsToService hwf m cursor⟩
  · exact (displayByte_booted hwf (by omega)).trans (stored.read_banner inBanner)
  · exact (displayByte_booted hwf inside).trans (stored.read_blank behind inside)
  · exact (read_booted_of_not_inKbdGate notGate).trans (stored.read_of_not_inTb fits notTb)

end Sys2Proof.Machine
end
